-- ==== Sys2Proof/Word.lean ====
section
/-! DEFINITION. The word and byte types of the block: host registers and command words are 32 bits
(10_state.md R22, 30_encoding.md R70), buffers hold bytes (00_scope.md R14). -/

namespace Sys2Proof

/-- A host register or a command word, 32 bits. -/
abbrev Word := BitVec 32

/-- One byte of a buffer. -/
abbrev Byte := BitVec 8

end Sys2Proof
end

