-- ==== Sys2Proof/Syntax.lean ====
section
/-! DEFINITION. The twelve commands of 30_encoding.md R77, one constructor per row of the opcode
table, and the named errors of 60_exceptions.md R251. -/

namespace Sys2Proof

/-- The store a VERIFYCS looks in, its bit S (30_encoding.md R73). -/
inductive Store where
  /-- S = 0: `RecOut.anc`. -/
  | recOut
  /-- S = 1: `RecIn.anc`. -/
  | recIn
deriving DecidableEq, Repr

/-- A command. The operand ARG is a register and no part of the word (30_encoding.md R75). -/
inductive Instr where
  /-- Start a cursor that reads INBUF (R101). -/
  | cinitr
  /-- Start a cursor that builds OUTBUF from empty (R102). -/
  | cinitw
  /-- Read the next `w` bits of INBUF (R104). `w` is the field W as it stands (R72). -/
  | rdbits (w : BitVec 6)
  /-- Write the `w`-bit value in ARG at the cursor (R106). -/
  | wrbits (w : BitVec 6)
  /-- Return the cursor position (R107). -/
  | getpos
  /-- Move the cursor to the bit position in ARG (R108). -/
  | seek
  /-- Return the number of bits left (R109). -/
  | remain
  /-- Decode an RTP header from INBUF at byte offset ARG (R202). -/
  | decrtp
  /-- Encode `RecIn.rtp` into OUTBUF at byte offset ARG (R204). -/
  | encrtp
  /-- Decode an ANC payload from INBUF at byte offset ARG (R211). -/
  | decanc
  /-- Encode `RecIn.anc` into OUTBUF at byte offset ARG (R214). -/
  | encanc
  /-- Check the checksum of message ARG of the chosen store (R216). -/
  | verifycs (store : Store)
deriving DecidableEq, Repr

/-- The errors a command can end with (60_exceptions.md R251). Each changes STATUS and nothing else
(R258). -/
inductive CmdError where
  /-- Fewer bits remain than a read needs. -/
  | truncatedInput
  /-- A value does not fit its field, or a count exceeds 255. -/
  | fieldOverflow
  /-- ARG does not fit the width of a WRBITS. -/
  | valueOutOfRange
  /-- W is 0 or above 32 on RDBITS or WRBITS. -/
  | illegalWidth
  /-- An unknown OP, or a nonzero RSV, S or W where it must be 0. -/
  | illegalCommand
  /-- The cursor is not in the mode the command needs. -/
  | wrongMode
  /-- A bit position or byte offset lies past the end of its buffer. -/
  | seekOutOfRange
  /-- OUTBUF would need more than OUT_CAP bytes. -/
  | outputFull
  /-- No such message in the chosen store. -/
  | indexOutOfRange
deriving DecidableEq, Repr

end Sys2Proof
end

