-- ==== Sys2Proof/WellFormed.lean ====
section
/-! DEFINITION. Which commands are well formed: the access width of RDBITS and WRBITS is 1 to 32
(30_encoding.md R72). Every other operand is free. -/

namespace Sys2Proof

/-- `1 ≤ W ≤ 32` (30_encoding.md R72). -/
def legalWidth (w : BitVec 6) : Bool := decide (1 ≤ w.toNat) && decide (w.toNat ≤ 32)

/-- The command passes the width check of 30_encoding.md R76 step 4. -/
def Instr.wellFormed : Instr → Bool
  | .cinitr => true
  | .cinitw => true
  | .rdbits w => legalWidth w
  | .wrbits w => legalWidth w
  | .getpos => true
  | .seek => true
  | .remain => true
  | .decrtp => true
  | .encrtp => true
  | .decanc => true
  | .encanc => true
  | .verifycs _ => true

end Sys2Proof
end

