-- ==== Sys2Proof/Decode.lean ====
section
/-! DEFINITION. The command word (30_encoding.md Part A): its fields, the decoder with the checks of
R76 in their order, and the encoder. ILLEGAL_WIDTH (R76 step 4) is raised by the meanings of RDBITS
and WRBITS, which are the last to see W (log 9); every other rejection is here, by name. -/

namespace Sys2Proof

/-- The operations of the opcode map (30_encoding.md R77), without operands. -/
inductive Op where
  | cinitr | cinitw | rdbits | wrbits | getpos | seek | remain
  | decrtp | encrtp | decanc | encanc | verifycs
deriving DecidableEq, Repr

/-- The OP value of each operation (30_encoding.md R77). -/
def Op.code : Op → BitVec 8
  | .cinitr => 0x01
  | .cinitw => 0x02
  | .rdbits => 0x03
  | .wrbits => 0x04
  | .getpos => 0x05
  | .seek => 0x06
  | .remain => 0x07
  | .decrtp => 0x10
  | .encrtp => 0x11
  | .decanc => 0x12
  | .encanc => 0x13
  | .verifycs => 0x14

/-- Every operation, in the table's order. -/
def Op.all : List Op :=
  [.cinitr, .cinitw, .rdbits, .wrbits, .getpos, .seek, .remain,
   .decrtp, .encrtp, .decanc, .encanc, .verifycs]

/-- The operation an OP value selects, none for the illegal values of 30_encoding.md R78. -/
def Op.ofCode (b : BitVec 8) : Option Op := Op.all.find? (fun o => o.code == b)

/-- OP = `cmd[7:0]` (30_encoding.md R71). -/
def opField (w : Word) : BitVec 8 := w.extractLsb' 0 8

/-- W = `cmd[13:8]` (30_encoding.md R72). -/
def wField (w : Word) : BitVec 6 := w.extractLsb' 8 6

/-- S = `cmd[14]` (30_encoding.md R73). -/
def sField (w : Word) : Bool := w.getLsbD 14

/-- RSV = `cmd[31:15]` (30_encoding.md R74). -/
def rsvField (w : Word) : BitVec 17 := w.extractLsb' 15 17

/-- The store bit S selects (30_encoding.md R73). -/
def storeOf (s : Bool) : Store := if s then .recIn else .recOut

/-- The bit S that selects a store (30_encoding.md R73). -/
def storeBit : Store → Nat
  | .recOut => 0
  | .recIn => 1

/-- The command with operation `o` and the operand fields W and S of its word. -/
def Op.instr (o : Op) (width : BitVec 6) (s : Bool) : Instr :=
  match o with
  | .cinitr => .cinitr
  | .cinitw => .cinitw
  | .rdbits => .rdbits width
  | .wrbits => .wrbits width
  | .getpos => .getpos
  | .seek => .seek
  | .remain => .remain
  | .decrtp => .decrtp
  | .encrtp => .encrtp
  | .decanc => .decanc
  | .encanc => .encanc
  | .verifycs => .verifycs (storeOf s)

/-- The operation takes a width in W (30_encoding.md R72). -/
def Op.usesWidth (o : Op) : Bool := o == .rdbits || o == .wrbits

/-- Decode a command word, checking it in the order of 30_encoding.md R76. -/
def decode (w : Word) : Except CmdError Instr :=
  match Op.ofCode (opField w) with
  | none => .error .illegalCommand
  | some o =>
    if rsvField w ≠ 0 then .error .illegalCommand
    else if sField w = true ∧ o ≠ .verifycs then .error .illegalCommand
    else if o.usesWidth = false ∧ wField w ≠ 0 then .error .illegalCommand
    else .ok (o.instr (wField w) (sField w))

/-- The operation of a command. -/
def Instr.op : Instr → Op
  | .cinitr => .cinitr
  | .cinitw => .cinitw
  | .rdbits _ => .rdbits
  | .wrbits _ => .wrbits
  | .getpos => .getpos
  | .seek => .seek
  | .remain => .remain
  | .decrtp => .decrtp
  | .encrtp => .encrtp
  | .decanc => .decanc
  | .encanc => .encanc
  | .verifycs _ => .verifycs

/-- The field W of a command's word: the width of RDBITS and WRBITS, else 0 (30_encoding.md R72). -/
def Instr.widthField : Instr → BitVec 6
  | .rdbits w => w
  | .wrbits w => w
  | .cinitr | .cinitw | .getpos | .seek | .remain => 0
  | .decrtp | .encrtp | .decanc | .encanc | .verifycs _ => 0

/-- The field S of a command's word: the store of VERIFYCS, else 0 (30_encoding.md R73). -/
def Instr.storeField : Instr → Nat
  | .verifycs store => storeBit store
  | .cinitr | .cinitw | .rdbits _ | .wrbits _ | .getpos | .seek | .remain => 0
  | .decrtp | .encrtp | .decanc | .encanc => 0

/-- The word of a command: RSV = 0, S, W and OP in their places (30_encoding.md R70). -/
def encode (i : Instr) : Word :=
  BitVec.ofNat 32 (i.op.code.toNat + i.widthField.toNat * 2 ^ 8 + i.storeField * 2 ^ 14)

/-- One row of the opcode table: a word is of the row when its bits under `mask` are `value`. -/
structure OpcodeRow where
  op : Op
  value : Word
  mask : Word
deriving DecidableEq, Repr

/-- The match and mask columns of spec/opcode_table.json, whose patterns are 30_encoding.md R77's. -/
def opcodeTable : List OpcodeRow :=
  [⟨.cinitr, 0x00000001, 0xFFFFFFFF⟩, ⟨.cinitw, 0x00000002, 0xFFFFFFFF⟩,
   ⟨.rdbits, 0x00000003, 0xFFFFC0FF⟩, ⟨.wrbits, 0x00000004, 0xFFFFC0FF⟩,
   ⟨.getpos, 0x00000005, 0xFFFFFFFF⟩, ⟨.seek, 0x00000006, 0xFFFFFFFF⟩,
   ⟨.remain, 0x00000007, 0xFFFFFFFF⟩, ⟨.decrtp, 0x00000010, 0xFFFFFFFF⟩,
   ⟨.encrtp, 0x00000011, 0xFFFFFFFF⟩, ⟨.decanc, 0x00000012, 0xFFFFFFFF⟩,
   ⟨.encanc, 0x00000013, 0xFFFFFFFF⟩, ⟨.verifycs, 0x00000014, 0xFFFFBFFF⟩]

/-- The word is of the row. -/
def OpcodeRow.fits (r : OpcodeRow) (w : Word) : Bool := w &&& r.mask == r.value

/-- What the decoder reads from a command whose low `nbits` bits are `w`, the bits above being 0. -/
def decodeTableWord (nbits w : Nat) : Option Instr :=
  match decode (BitVec.ofNat 32 (w % 2 ^ nbits)) with
  | .ok i => some i
  | .error _ => none

end Sys2Proof
end

