-- ==== Sys2Proof/Machine/Records.lean ====
section
/-! DEFINITION. The record types of the two record stores (10_state.md R37 to R42). A scalar field is
a natural number of any size (R41); the block checks its width when a command uses it. -/

namespace Sys2Proof.Machine

/-- An RTP header record (10_state.md R37); the wire widths stand in Machine/Schema.lean. -/
structure RtpHeader where
  version : Nat
  padding : Nat
  extension : Nat
  csrcCount : Nat
  marker : Nat
  payloadType : Nat
  sequenceNumber : Nat
  timestamp : Nat
  ssrc : Nat
  extendedSequenceNumber : Nat
  payloadLength : Nat
deriving DecidableEq, Repr, Inhabited

/-- An ANC message record (10_state.md R39). The padding is no field of it (R167). -/
structure AncMessage where
  c : Nat
  lineNumber : Nat
  horizontalOffset : Nat
  dataStreamFlag : Nat
  streamNum : Nat
  did : Nat
  sdid : Nat
  dataCountParity : Nat
  dataCount : Nat
  userData : List Byte
  checksum : Nat
deriving DecidableEq, Repr, Inhabited

/-- An ANC packet record as the host writes it to RecIn (10_state.md R38). -/
structure AncPacket where
  ancCount : Nat
  field : Nat
  reserved : Nat
  messages : List AncMessage
deriving DecidableEq, Repr, Inhabited

/-- A message of RecOut: the record and the three advisory fields DECANC writes (10_state.md R40). -/
structure DecodedMessage where
  msg : AncMessage
  advDcParity : Bool
  advUdwParity : Nat
  advChecksum : Bool
deriving DecidableEq, Repr, Inhabited

/-- An ANC packet record of RecOut (10_state.md R38, R40). -/
structure DecodedPacket where
  ancCount : Nat
  field : Nat
  reserved : Nat
  messages : List DecodedMessage
deriving DecidableEq, Repr, Inhabited

end Sys2Proof.Machine
end

