-- ==== Sys2Proof/Config.lean ====
section
/-! DEFINITION. What an implementation fixes (00_scope.md R9) and the free values the spec leaves open
(10_state.md R47). None of the opaque constants has a known value: a statement holds for all. -/

namespace Sys2Proof.Config

/-- The least capacity R9 allows: the largest byte string any operation needs (00_scope.md R11). -/
def minCap : Nat := 83660

/-- The greatest capacity the buffer windows leave room for, 2^20 (20_memory.md R62). -/
def maxCap : Nat := 1048576

/-- How far IN_CAP lies above the least capacity; any value up to `maxCap - minCap` (log 5). -/
opaque inCapSpare : Fin 964917

/-- How far OUT_CAP lies above the least capacity (log 5). -/
opaque outCapSpare : Fin 964917

/-- IN_CAP, a parameter: 83,660 to 2^20 bytes (00_scope.md R9, 20_memory.md R62; log 5). -/
def inCap : Nat := minCap + inCapSpare.val

/-- OUT_CAP, a parameter: 83,660 to 2^20 bytes (00_scope.md R9, 20_memory.md R62; log 5). -/
def outCap : Nat := minCap + outCapSpare.val

/-- The order in which a register's bytes move when a host reaches it a byte at a time. -/
inductive Endian where
  | little
  | big
deriving DecidableEq, Repr, Inhabited

/-- HOST_BUS_ENDIAN, left open (20_memory.md R55; log 6). -/
opaque hostBusEndian : Endian

/-- Byte `k` of INBUF after the `n`th reset: a free draw (10_state.md R47; log 2). -/
opaque inbufDraw (n k : Nat) : Byte

/-- Byte `k` of OUTBUF after the `n`th reset: a free draw (10_state.md R47; log 3). -/
opaque outbufDraw (n k : Nat) : Byte

/-- What the host reads in byte `k` of OUTBUF when `k` is OUTLEN or above and OUTBUF or OUTLEN has
been written `n` times: a free draw (10_state.md R34, 70_reset_and_hazards.md R288; log 3). -/
opaque outbufBeyond (n k : Nat) : Byte

/-- `RecIn.rtp` after the `n`th reset: a free draw (10_state.md R47; log 4). -/
opaque recInRtpDraw (n : Nat) : Machine.RtpHeader

/-- `RecIn.anc` after the `n`th reset: a free draw (10_state.md R47; log 4). -/
opaque recInAncDraw (n : Nat) : Machine.AncPacket

end Sys2Proof.Config
end

