-- ==== Sys2Proof/Machine/State.lean ====
section
/-! DEFINITION. The state of one block (10_state.md), the host's accesses, the state after reset. -/

namespace Sys2Proof.Machine

/-- The mode of the host-visible cursor (10_state.md R30). The value 3 never occurs. -/
inductive CurMode where
  | idle
  | read
  | write
deriving DecidableEq, Repr

/-- The cells of a byte space that something has written, as pairs of an index and a byte. The
canonical form `Memory.wf` (Machine/Ops.lean) has the indices strictly rising; an index that is not
listed has never been written since reset and reads as a free draw (log 2, log 3). -/
abbrev Memory := List Host.Cell

/-- One access of the host, or the reset event (10_state.md R20, 20_memory.md R58, R60). Offsets count
from the block's base address (20_memory.md R61 to R63). -/
inductive HostAccess where
  /-- Write a 32-bit register. At offset 0, CMD, this runs a command (R23). -/
  | writeWord (offset : Nat) (data : Word)
  /-- The same register write moved as four bytes, in bus order (R55; log 6). -/
  | writeWordBytes (offset : Nat) (b0 b1 b2 b3 : Byte)
  /-- Write one byte of a buffer window. -/
  | writeByte (offset : Nat) (data : Byte)
  /-- Read a 32-bit register. -/
  | readWord (offset : Nat)
  /-- Read one byte of a buffer window. -/
  | readByte (offset : Nat)
  /-- Write the record `RecIn.rtp` (R36; log 7). -/
  | writeRecInRtp (h : RtpHeader)
  /-- Write the record `RecIn.anc` (R36; log 7). -/
  | writeRecInAnc (p : AncPacket)
  /-- The reset event from outside the block (70_reset_and_hazards.md R280; log 12). -/
  | reset
deriving DecidableEq, Repr

/-- The state of one block: exactly what 10_state.md R45 lists, and below it the model's own fields. -/
structure State where
  /-- ARG (R24). -/
  arg : Word
  /-- RESULT (R25). -/
  result : Word
  /-- STATUS (R26). -/
  status : Word
  /-- INLEN, the natural number it holds (R28; log 11). -/
  inlen : Nat
  /-- OUTLEN, the natural number it holds (R29; log 11). -/
  outlen : Nat
  /-- The cursor's mode, CURMODE (R30). -/
  mode : CurMode
  /-- The cursor's bit position, CURPOS (R30; log 11). -/
  pos : Nat
  /-- INBUF (R33). -/
  inbuf : Memory
  /-- OUTBUF (R34). -/
  outbuf : Memory
  /-- `RecIn.rtp` (R36, R37). -/
  recInRtp : RtpHeader
  /-- `RecIn.anc` (R36, R38). -/
  recInAnc : AncPacket
  /-- `RecOut.rtp` (R36, R37). -/
  recOutRtp : Option RtpHeader
  /-- `RecOut.anc` (R36, R38, R40). -/
  recOutAnc : Option DecodedPacket
  /-- The model's own: the accesses of the host not yet served, oldest first (log 1). -/
  pending : List HostAccess
  /-- The model's own: the data the last host read returned (log 10). -/
  readData : Word
  /-- The model's own: how many reset events have come; selects the free draws of INBUF, OUTBUF and
  RecIn (log 2, log 3, log 4, log 10). -/
  resets : Nat
  /-- The model's own: how many times OUTBUF or OUTLEN was written; selects the free draws beyond
  OUTLEN (log 3, log 10). -/
  outDraws : Nat
deriving DecidableEq, Repr

/-- Why the machine stops with a fault: never. A command that fails writes STATUS and the machine goes
on (60_exceptions.md R258, R260), so no constructor is needed. -/
inductive Fault
deriving DecidableEq, Repr

/-- Why an instruction has no meaning. -/
inductive Refusal where
  /-- An instruction without a meaning, raised by its arm of `exec`. Safe: nothing is claimed of it.
  No arm raises it: every instruction has its meaning. -/
  | notModelled (mnemonic : String)
deriving DecidableEq, Repr

/-- The state after reset (10_state.md R47, 70_reset_and_hazards.md R280): the registers 0, the cursor
IDLE, RecOut `none`; INBUF, OUTBUF and RecIn unspecified, as free draws. -/
def State.reset : State where
  arg := 0
  result := 0
  status := 0
  inlen := 0
  outlen := 0
  mode := .idle
  pos := 0
  inbuf := []
  outbuf := []
  recInRtp := Config.recInRtpDraw 0
  recInAnc := Config.recInAncDraw 0
  recOutRtp := none
  recOutAnc := none
  pending := []
  readData := 0
  resets := 0
  outDraws := 0

end Sys2Proof.Machine
end

