-- ==== Sys2Proof/Machine/BitCursor.lean ====
section
/-! DEFINITION. The pure functions of the Bit Cursor: single bits of a byte buffer (00_scope.md R14,
R15), `readBitsF` (40_bit_cursor.md R100) and `writeBitsF` (R105). A buffer of L bytes is a list of
length L. -/

namespace Sys2Proof.Machine

/-- `BitAt(B, p)`: stream bit `p` is bit `7 - p mod 8` of byte `p div 8` (00_scope.md R14, R15). -/
def bitAt (B : List Byte) (p : Nat) : Bool := (B.getD (p / 8) 0).getLsbD (7 - p % 8)

/-- A byte with its bit `i` set to `b`. -/
def setByteBit (x : Byte) (i : Nat) (b : Bool) : Byte :=
  if b then x ||| (1#8 <<< i) else x &&& ~~~(1#8 <<< i)

/-- `SetBit(B, p, b)`: the buffer with that one stream bit replaced (00_scope.md R15). -/
def setBit (B : List Byte) (p : Nat) (b : Bool) : List Byte :=
  B.set (p / 8) (setByteBit (B.getD (p / 8) 0) (7 - p % 8) b)

/-- The value of the `n` bits from stream position `p` on, the first bit the most significant
(20_memory.md R51, the loop of 40_bit_cursor.md R100). -/
def bitsValue (B : List Byte) (p : Nat) : Nat → Nat
  | 0 => 0
  | n + 1 => 2 * bitsValue B p n + (bitAt B (p + n)).toNat

/-- Read `n` bits at position `p`: the value and the new position (40_bit_cursor.md R100). -/
def readBitsF (B : List Byte) (p n : Nat) : Except CmdError (Nat × Nat) :=
  if p + n > 8 * B.length then .error .truncatedInput else .ok (bitsValue B p n, p + n)

/-- The first `k` of the `n` bits of `v` written from position `p` on, most significant bit first (the
loop of 40_bit_cursor.md R105). -/
def putBits (B : List Byte) (p n v : Nat) : Nat → List Byte
  | 0 => B
  | k + 1 => setBit (putBits B p n v k) (p + k) (v.testBit (n - 1 - k))

/-- The length a write of `n` bits at `p` needs: `max(L, ceil((p + n) / 8))` (40_bit_cursor.md
R105). -/
def grownLength (len p n : Nat) : Nat := max len ((p + n + 7) / 8)

/-- The buffer grown to `len` bytes, new bytes 0 (40_bit_cursor.md R105). -/
def growTo (B : List Byte) (len : Nat) : List Byte := B ++ List.replicate (len - B.length) 0

/-- Write the `n`-bit value `v` at position `p`; `room k` says that the buffer may hold `k` bytes. The
new buffer and the new position, or the error that rejects the whole write (40_bit_cursor.md R105). -/
def writeBitsF (B : List Byte) (p n v : Nat) (room : Nat → Bool) : Except CmdError (List Byte × Nat) :=
  if v ≥ 2 ^ n then .error .valueOutOfRange
  else if room (grownLength B.length p n) = false then .error .outputFull
  else .ok (putBits (growTo B (grownLength B.length p n)) p n v n, p + n)

end Sys2Proof.Machine
end

