-- ==== Sys2Proof/Machine/Flags.lean ====
section
/-! DEFINITION. Flags and computed values: the STATUS word (10_state.md R26), the parity pair
(42_computed_fields.md R153), the checksum (R158 to R162), the padding width (R164), the checksum
verification (R169) and the advisories of a decoded packet (10_state.md R40). -/

namespace Sys2Proof.Machine

/-- The ERR code of an error (60_exceptions.md R251). -/
def errCode : CmdError → BitVec 4
  | .truncatedInput => 1
  | .fieldOverflow => 2
  | .valueOutOfRange => 3
  | .illegalWidth => 4
  | .illegalCommand => 5
  | .wrongMode => 6
  | .seekOutOfRange => 7
  | .outputFull => 8
  | .indexOutOfRange => 9

/-- The two advisory flags a successful command leaves in STATUS (10_state.md R26). -/
structure Advisories where
  parity : Bool
  checksum : Bool
deriving DecidableEq, Repr

/-- No advisory: every command but DECANC and VERIFYCS (10_state.md R27). -/
def Advisories.clear : Advisories := ⟨false, false⟩

/-- The STATUS word: ERR in bits 3 to 0, ADV_PARITY in bit 8, ADV_CHECKSUM in bit 9, the rest 0
(10_state.md R26). -/
def statusWord (err : BitVec 4) (a : Advisories) : Word :=
  (0#22 ++ BitVec.ofBool a.checksum ++ BitVec.ofBool a.parity ++ 0#4 ++ err : BitVec (22 + 1 + 1 + 4 + 4))

/-- STATUS.ERR. -/
def statusErr (w : Word) : BitVec 4 := w.extractLsb' 0 4

/-- STATUS.ADV_PARITY. -/
def statusAdvParity (w : Word) : Bool := w.getLsbD 8

/-- STATUS.ADV_CHECKSUM. -/
def statusAdvChecksum (w : Word) : Bool := w.getLsbD 9

/-- The number of set bits among the low 8 bits of `x` (00_scope.md R13). -/
def popcount8 (x : Nat) : Nat := ((List.range 8).map (fun i => x / 2 ^ i % 2)).sum

/-- The even-parity bit of the low 8 bits of `x` (42_computed_fields.md R153). -/
def ep (x : Nat) : Nat := popcount8 x % 2

/-- The parity pair: the even-parity bit over its inverse (42_computed_fields.md R153). -/
def parityPair (x : Nat) : Nat := ep x * 2 + (1 - ep x)

/-- The 10-bit user-data word of a payload byte (43_subword_array.md R181). -/
def udw (b : Byte) : Nat := parityPair b.toNat * 256 + b.toNat

/-- The low 9 bits of the DC word of a count, and of the user-data word of a byte: the inverse of the
even-parity bit over 8 bits (42_computed_fields.md R158, R160, R161). -/
def nineBitTerm (x : Nat) : Nat := (1 - ep x) * 256 + x

/-- The 9-bit checksum sum, the carry out of bit 8 dropped (42_computed_fields.md R158). -/
def checksumSum (did sdid count : Nat) (ud : List Byte) : Nat :=
  (did % 512 + sdid % 512 + nineBitTerm count + (ud.map (fun b => nineBitTerm b.toNat)).sum) % 512

/-- The 10-bit checksum word: the inverse of the sum's bit 8 over the sum (42_computed_fields.md
R162). -/
def checksumWord (did sdid count : Nat) (ud : List Byte) : Nat :=
  (1 - checksumSum did sdid count ud / 256) * 512 + checksumSum did sdid count ud

/-- The padding width of a message with count `d` (42_computed_fields.md R164). -/
def wordAlignWidth (d : Nat) : Nat := 32 - (10 * d + 8) % 32

/-- The length of an ANC data packet in bits (44_packet_schemas.md R213). -/
def msgBits (d : Nat) : Nat := 72 + 10 * d + wordAlignWidth d

/-- The length of an ANC data packet in bytes (44_packet_schemas.md R213). -/
def msgBytes (d : Nat) : Nat := msgBits d / 8

/-- Checksum verification of a message record (42_computed_fields.md R169). -/
def verifyMessage (m : AncMessage) : Bool :=
  if m.userData.length > 255 ∨ m.dataCount ≠ m.userData.length then false
  else m.checksum == checksumWord m.did m.sdid m.userData.length m.userData

/-- The message has a `ParityMismatch` (60_exceptions.md R256). -/
def DecodedMessage.parityMismatch (m : DecodedMessage) : Bool := m.advDcParity || decide (0 < m.advUdwParity)

/-- The STATUS advisories of a DECANC (10_state.md R40, 44_packet_schemas.md R211). -/
def DecodedPacket.advisories (p : DecodedPacket) : Advisories :=
  ⟨p.messages.any DecodedMessage.parityMismatch, p.messages.any (fun m => m.advChecksum)⟩

end Sys2Proof.Machine
end

