-- ==== Sys2Proof/Machine/Ops.lean ====
section
/-! DEFINITION. The named operations over memory and state: the cells of a byte space, the buffers as
commands and host see them, the capacity checks, and how a command ends: the ONE operation that raises
an error (60_exceptions.md R258, the block's stand-in for taking an exception) and the one that ends
a success (10_state.md R27). There is no return from an error (60_exceptions.md R260). -/

namespace Sys2Proof.Machine

/-- The canonical form: the listed indices rise strictly. -/
def Memory.wf : Memory → Bool
  | [] => true
  | [_] => true
  | x :: y :: m => decide (x.1 < y.1) && Memory.wf (y :: m)

/-- The byte written last at index `a`, none when nothing has written it. -/
def Memory.read? : Memory → Nat → Option Byte
  | [], _ => none
  | (x, c) :: m, a => if a = x then some c else Memory.read? m a

/-- Write one byte, keeping the canonical form. -/
def Memory.write : Memory → Nat → Byte → Memory
  | [], a, b => [(a, b)]
  | (x, c) :: m, a, b =>
    if a < x then (a, b) :: (x, c) :: m
    else if a = x then (a, b) :: m
    else (x, c) :: Memory.write m a b

/-- Write consecutive bytes from index `a` on (`MemWrite`, 00_scope.md R15). -/
def Memory.writeBytes : Memory → Nat → List Byte → Memory
  | m, _, [] => m
  | m, a, b :: bs => Memory.writeBytes (Memory.write m a b) (a + 1) bs

/-- `n ≤ cap` for a capacity `cap` of at least 83,660 bytes (00_scope.md R9): the first test decides it
for the sizes every capacity allows, so that a run can be evaluated without the capacity's value. -/
def fitsCap (cap n : Nat) : Bool := decide (n ≤ Config.minCap) || decide (n ≤ cap)

/-- INBUF may hold `n` bytes: `n ≤ IN_CAP`. -/
def fitsIn (n : Nat) : Bool := fitsCap Config.inCap n

/-- OUTBUF may hold `n` bytes: `n ≤ OUT_CAP`. -/
def fitsOut (n : Nat) : Bool := fitsCap Config.outCap n

/-- Byte `k` of INBUF: what was written there last, else its free draw (10_state.md R33, R47). -/
def State.inbufByte (s : State) (k : Nat) : Byte :=
  (s.inbuf.read? k).getD (Config.inbufDraw s.resets k)

/-- Byte `k` of OUTBUF as the array holds it: what the block wrote there last, else its free draw
(10_state.md R34, R47). -/
def State.outbufCell (s : State) (k : Nat) : Byte :=
  (s.outbuf.read? k).getD (Config.outbufDraw s.resets k)

/-- Byte `k` of OUTBUF as the host reads it: unspecified at OUTLEN and above (10_state.md R34). -/
def State.outbufByte (s : State) (k : Nat) : Byte :=
  if k < s.outlen then s.outbufCell k else Config.outbufBeyond s.outDraws k

/-- `INBUF[0 .. INLEN-1]`, the input of every command (10_state.md R31, R33). -/
def State.inBytes (s : State) : List Byte := (List.range s.inlen).map s.inbufByte

/-- `OUTBUF[0 .. OUTLEN-1]`, the output (10_state.md R31, R34). -/
def State.outBytes (s : State) : List Byte := (List.range s.outlen).map s.outbufCell

/-- The length in bytes of the cursor's buffer (10_state.md R31). -/
def State.cursorLen (s : State) : Nat :=
  match s.mode with
  | .idle => 0
  | .read => s.inlen
  | .write => s.outlen

/-- End a command with an error: STATUS becomes its code with no advisory, nothing else changes
(60_exceptions.md R258). -/
def State.raise (s : State) (e : CmdError) : State :=
  { s with status := statusWord (errCode e) .clear }

/-- End a command with success: ERR = 0 and the advisories (10_state.md R27). -/
def State.succeed (s : State) (a : Advisories) : State :=
  { s with status := statusWord 0 a }

/-- What the body of a command gives: the first error its checks meet, or the state it writes and its
advisories. -/
abbrev Effect := Except CmdError (State × Advisories)

/-- The state after a command whose body gave `r`: an error leaves `s` but for STATUS (00_scope.md R17,
60_exceptions.md R258). -/
def State.settle (s : State) (r : Effect) : State :=
  match r with
  | .error e => s.raise e
  | .ok (t, a) => t.succeed a

/-- A command always completes with a next state (60_exceptions.md R250). -/
def State.complete (s : State) (r : Effect) : Host.Outcome State Fault Refusal :=
  .next (s.settle r)

/-- Write `OUTBUF[0 .. L'-1]` and OUTLEN after a WRBITS (40_bit_cursor.md R106). -/
def State.putOutput (s : State) (bytes : List Byte) : State :=
  { s with
    outbuf := s.outbuf.writeBytes 0 bytes
    outlen := bytes.length
    outDraws := s.outDraws + 1 }

/-- Commit the `T` bytes of a packet encode at offset `k`: OUTBUF, OUTLEN = K + T, a WRITE cursor moves
to IDLE, RESULT = T (44_packet_schemas.md R204, R214). -/
def State.commitPacket (s : State) (k : Nat) (bytes : List Byte) : State :=
  { s with
    outbuf := s.outbuf.writeBytes k bytes
    outlen := k + bytes.length
    mode := if s.mode = .write then .idle else s.mode
    pos := if s.mode = .write then 0 else s.pos
    result := BitVec.ofNat 32 bytes.length
    outDraws := s.outDraws + 1 }

end Sys2Proof.Machine
end

