-- ==== Sys2Proof/Machine/Bus.lean ====
section
/-! DEFINITION. The host's accesses other than running a command: the register map and the buffer
windows (20_memory.md R58 to R63), the byte order of the bus (R55), a write of INLEN (10_state.md R28),
and the reset event (70_reset_and_hazards.md R280). -/

namespace Sys2Proof.Machine

/-- Offset of CMD (20_memory.md R61). -/
def cmdOffset : Nat := 0x00

/-- First offset of the INBUF window (20_memory.md R62). -/
def inbufBase : Nat := 0x100000

/-- First offset of the OUTBUF window (20_memory.md R62). -/
def outbufBase : Nat := 0x200000

/-- CURMODE as the host reads it (10_state.md R30). -/
def modeCode : CurMode → Nat
  | .idle => 0
  | .read => 1
  | .write => 2

/-- What the host reads in the register at an offset; 0 at CMD and at any other offset (10_state.md R22,
20_memory.md R61, R63; log 8, log 11). -/
def State.readRegister (s : State) (offset : Nat) : Word :=
  match offset with
  | 0x04 => s.arg
  | 0x08 => s.result
  | 0x0C => s.status
  | 0x10 => BitVec.ofNat 32 s.inlen
  | 0x14 => BitVec.ofNat 32 s.outlen
  | 0x18 => BitVec.ofNat 32 s.pos
  | 0x1C => BitVec.ofNat 32 (modeCode s.mode)
  | 0x20 => BitVec.ofNat 32 Config.inCap
  | 0x24 => BitVec.ofNat 32 Config.outCap
  | _ => 0

/-- A host write of `v` to INLEN: clamped to IN_CAP, and a reader goes back to IDLE (10_state.md
R28). -/
def State.writeInlen (s : State) (v : Nat) : State :=
  { s with
    inlen := if fitsIn v then v else Config.inCap
    mode := if s.mode = .read then .idle else s.mode
    pos := if s.mode = .read then 0 else s.pos }

/-- A host write of a register other than CMD; a read-only register and any other offset ignore it
(20_memory.md R60, R63). -/
def State.writeRegister (s : State) (offset : Nat) (v : Word) : State :=
  match offset with
  | 0x04 => { s with arg := v }
  | 0x10 => s.writeInlen v.toNat
  | _ => s

/-- The index in INBUF of an offset in its window (20_memory.md R62). -/
def inbufIndex (offset : Nat) : Option Nat :=
  if inbufBase ≤ offset ∧ offset < outbufBase ∧ fitsIn (offset - inbufBase + 1) = true then
    some (offset - inbufBase)
  else none

/-- The index in OUTBUF of an offset in its window (20_memory.md R62). -/
def outbufIndex (offset : Nat) : Option Nat :=
  if outbufBase ≤ offset ∧ fitsOut (offset - outbufBase + 1) = true then some (offset - outbufBase)
  else none

/-- What the host reads in one byte of a window; 0 at any other offset (20_memory.md R62, R63;
log 8). -/
def State.readWindow (s : State) (offset : Nat) : Byte :=
  match inbufIndex offset with
  | some k => s.inbufByte k
  | none =>
    match outbufIndex offset with
    | some k => s.outbufByte k
    | none => 0

/-- A host write of one byte: INBUF takes it, OUTBUF and any other offset ignore it (20_memory.md R60,
R63; log 8). -/
def State.writeWindow (s : State) (offset : Nat) (b : Byte) : State :=
  match inbufIndex offset with
  | some k => { s with inbuf := s.inbuf.write k b }
  | none => s

/-- The word that four bytes moved in bus order make, the first in the least significant place of a
little-endian bus (20_memory.md R55; log 6). -/
def busWord (e : Config.Endian) (b0 b1 b2 b3 : Byte) : Word :=
  match e with
  | .little => BitVec.ofNat 32 (b0.toNat + 2 ^ 8 * b1.toNat + 2 ^ 16 * b2.toNat + 2 ^ 24 * b3.toNat)
  | .big => BitVec.ofNat 32 (b3.toNat + 2 ^ 8 * b2.toNat + 2 ^ 16 * b1.toNat + 2 ^ 24 * b0.toNat)

/-- The four bytes of a word in the order the bus moves them (20_memory.md R55; log 6). -/
def busBytes (e : Config.Endian) (w : Word) : List Byte :=
  match e with
  | .little => [w.extractLsb' 0 8, w.extractLsb' 8 8, w.extractLsb' 16 8, w.extractLsb' 24 8]
  | .big => [w.extractLsb' 24 8, w.extractLsb' 16 8, w.extractLsb' 8 8, w.extractLsb' 0 8]

/-- The bytes a host that reads a byte at a time sees of its last register read (20_memory.md R55). -/
def State.readDataBytes (s : State) : List Byte := busBytes Config.hostBusEndian s.readData

/-- The reset event: every piece of state at its value after reset, the unspecified ones drawn anew;
the host's accesses to come stay (70_reset_and_hazards.md R280; log 12). -/
def State.resetEvent (s : State) : State :=
  { State.reset with
    recInRtp := Config.recInRtpDraw (s.resets + 1)
    recInAnc := Config.recInAncDraw (s.resets + 1)
    pending := s.pending
    resets := s.resets + 1
    outDraws := s.outDraws + 1 }

end Sys2Proof.Machine
end

