-- ==== Sys2Proof/Machine/Operands.lean ====
section
/-! DEFINITION. The operand forms of the commands: the width W (30_encoding.md R72), and ARG as a value,
a bit position, a byte offset or a message index (R75), each with the check its commands make on it
(60_exceptions.md R257 steps 1 to 3), and the cursor modes a command needs. -/

namespace Sys2Proof.Machine

/-- The access width of RDBITS and WRBITS; ILLEGAL_WIDTH outside 1 to 32 (30_encoding.md R72, R76
step 4). -/
def widthOperand (w : BitVec 6) : Except CmdError Nat :=
  if legalWidth w then .ok w.toNat else .error .illegalWidth

/-- The command needs the cursor in mode `m` (40_bit_cursor.md R104, R106). -/
def State.requireMode (s : State) (m : CurMode) : Except CmdError Unit :=
  if s.mode = m then .ok () else .error .wrongMode

/-- The command needs a cursor, a reader or a writer (40_bit_cursor.md R107 to R109). -/
def State.requireCursor (s : State) : Except CmdError Unit :=
  if s.mode = .idle then .error .wrongMode else .ok ()

/-- ARG as the target of a SEEK, at most the end of the cursor's buffer (40_bit_cursor.md R108). -/
def State.seekOperand (s : State) : Except CmdError Nat :=
  if s.arg.toNat > 8 * s.cursorLen then .error .seekOutOfRange else .ok s.arg.toNat

/-- ARG as a byte offset in INBUF, at most INLEN: the packet `INBUF[K .. INLEN-1]`
(44_packet_schemas.md R200, R202, R211). -/
def State.inPacketOperand (s : State) : Except CmdError (List Byte) :=
  if s.arg.toNat > s.inlen then .error .seekOutOfRange else .ok (s.inBytes.drop s.arg.toNat)

/-- ARG as a byte offset in OUTBUF, at most OUTLEN (44_packet_schemas.md R204, R214). -/
def State.outOffsetOperand (s : State) : Except CmdError Nat :=
  if s.arg.toNat > s.outlen then .error .seekOutOfRange else .ok s.arg.toNat

/-- The messages of the store S selects, none when the store holds no ANC record (30_encoding.md R73,
44_packet_schemas.md R216). -/
def State.storeMessages (s : State) : Store → List AncMessage
  | .recIn => s.recInAnc.messages
  | .recOut =>
    match s.recOutAnc with
    | none => []
    | some p => p.messages.map DecodedMessage.msg

/-- ARG as the index of a message of the store (44_packet_schemas.md R216). -/
def State.messageOperand (s : State) (store : Store) : Except CmdError AncMessage :=
  match (s.storeMessages store)[s.arg.toNat]? with
  | none => .error .indexOutOfRange
  | some m => .ok m

end Sys2Proof.Machine
end

