-- ==== Sys2Proof/Machine/Cursor.lean ====
section
/-! DEFINITION. The seven Bit Cursor commands (40_bit_cursor.md R101, R102, R104, R106 to R109). -/

namespace Sys2Proof.Machine

/-- CINITR (40_bit_cursor.md R101). -/
def execCinitr (s : State) : Host.Outcome State Fault Refusal :=
  s.complete (.ok ({ s with mode := .read, pos := 0 }, .clear))

/-- CINITW (40_bit_cursor.md R102). The OUTBUF bytes stay, all beyond the new OUTLEN. -/
def execCinitw (s : State) : Host.Outcome State Fault Refusal :=
  s.complete (.ok ({ s with mode := .write, pos := 0, outlen := 0, outDraws := s.outDraws + 1 }, .clear))

/-- RDBITS (40_bit_cursor.md R104). -/
def execRdbits (w : BitVec 6) (s : State) : Host.Outcome State Fault Refusal :=
  s.complete do
    let n ← widthOperand w
    s.requireMode .read
    let (v, p) ← readBitsF s.inBytes s.pos n
    return ({ s with result := BitVec.ofNat 32 v, pos := p }, .clear)

/-- WRBITS (40_bit_cursor.md R106). -/
def execWrbits (w : BitVec 6) (s : State) : Host.Outcome State Fault Refusal :=
  s.complete do
    let n ← widthOperand w
    s.requireMode .write
    let (bytes, p) ← writeBitsF s.outBytes s.pos n s.arg.toNat fitsOut
    return ({ s.putOutput bytes with pos := p }, .clear)

/-- GETPOS (40_bit_cursor.md R107). -/
def execGetpos (s : State) : Host.Outcome State Fault Refusal :=
  s.complete do
    s.requireCursor
    return ({ s with result := BitVec.ofNat 32 s.pos }, .clear)

/-- SEEK (40_bit_cursor.md R108). -/
def execSeek (s : State) : Host.Outcome State Fault Refusal :=
  s.complete do
    s.requireCursor
    let p ← s.seekOperand
    return ({ s with pos := p }, .clear)

/-- REMAIN (40_bit_cursor.md R109). -/
def execRemain (s : State) : Host.Outcome State Fault Refusal :=
  s.complete do
    s.requireCursor
    return ({ s with result := BitVec.ofNat 32 (8 * s.cursorLen - s.pos) }, .clear)

end Sys2Proof.Machine
end

