-- ==== Sys2Proof/Machine/Schema.lean ====
section
/-! DEFINITION. The field codec and the packet schemas as pure functions over byte strings: decodeField
and encodeField (41_field_codec.md R132, R133), the schemas as ordered lists of descriptors (R131,
R136 to R138), the 10-bit user-data words (43_subword_array.md R182, R184), and the record codecs of
44_packet_schemas.md R201, R203, R208, R210, R212. Each runs a private cursor that only moves forward
(40_bit_cursor.md R111). -/

namespace Sys2Proof.Machine

/-- The private cursor of a packet command: its byte sequence and its bit position (10_state.md
R35). -/
structure PrivateCursor where
  bytes : List Byte
  pos : Nat
deriving DecidableEq, Repr

/-- Read one field of width `w` (41_field_codec.md R132). -/
def decodeField (cur : PrivateCursor) (w : Nat) : Except CmdError (Nat × PrivateCursor) :=
  match readBitsF cur.bytes cur.pos w with
  | .error e => .error e
  | .ok (v, p) => .ok (v, { cur with pos := p })

/-- Write one field of width `w`; a value that does not fit is FIELD_OVERFLOW and the private buffer
has no capacity limit (41_field_codec.md R133). -/
def encodeField (cur : PrivateCursor) (v w : Nat) : Except CmdError PrivateCursor :=
  if v ≥ 2 ^ w then .error .fieldOverflow
  else
    match writeBitsF cur.bytes cur.pos w v (fun _ => true) with
    | .error e => .error e
    | .ok (B, p) => .ok ⟨B, p⟩

/-- The kinds of a field of constant width (41_field_codec.md R131); the array fields, the checksum and the padding
follow the schemas' lists, each read and written by a function of its own. -/
inductive FieldKind where
  | plain
  | computed
deriving DecidableEq, Repr

/-- A descriptor of a field of constant width (41_field_codec.md R131). -/
structure FieldDesc where
  name : String
  width : Nat
  kind : FieldKind
deriving DecidableEq, Repr

/-- The RTP header schema (41_field_codec.md R136, 30_encoding.md R83). -/
def rtpSchema : List FieldDesc :=
  [⟨"version", 2, .plain⟩, ⟨"padding", 1, .plain⟩, ⟨"extension", 1, .plain⟩,
   ⟨"csrcCount", 4, .plain⟩, ⟨"marker", 1, .plain⟩, ⟨"payloadType", 7, .plain⟩,
   ⟨"sequenceNumber", 16, .plain⟩, ⟨"timestamp", 32, .plain⟩, ⟨"ssrc", 32, .plain⟩,
   ⟨"extendedSequenceNumber", 16, .plain⟩, ⟨"payloadLength", 16, .plain⟩]

/-- The fields of the ANC packet schema before its array of messages (41_field_codec.md R137,
30_encoding.md R85). -/
def ancHeaderSchema : List FieldDesc :=
  [⟨"ancCount", 8, .computed⟩, ⟨"field", 2, .plain⟩, ⟨"reserved", 22, .plain⟩]

/-- The fields of the ANC message schema before its user data (41_field_codec.md R138, 30_encoding.md
R86). The user data, the checksum and the padding follow it. -/
def messageHeadSchema : List FieldDesc :=
  [⟨"c", 1, .plain⟩, ⟨"lineNumber", 11, .plain⟩, ⟨"horizontalOffset", 12, .plain⟩,
   ⟨"dataStreamFlag", 1, .plain⟩, ⟨"streamNum", 7, .plain⟩, ⟨"did", 10, .plain⟩,
   ⟨"sdid", 10, .plain⟩, ⟨"dataCountParity", 2, .computed⟩, ⟨"dataCount", 8, .computed⟩]

/-- Read the fields of a schema in their declared order (41_field_codec.md R135). -/
def decodeFields : List FieldDesc → PrivateCursor → Except CmdError (List Nat × PrivateCursor)
  | [], cur => .ok ([], cur)
  | d :: ds, cur =>
    match decodeField cur d.width with
    | .error e => .error e
    | .ok (v, cur) =>
      match decodeFields ds cur with
      | .error e => .error e
      | .ok (vs, cur) => .ok (v :: vs, cur)

/-- Write the values of a schema's fields in their declared order (41_field_codec.md R135). -/
def encodeFields : List FieldDesc → List Nat → PrivateCursor → Except CmdError PrivateCursor
  | d :: ds, v :: vs, cur =>
    match encodeField cur v d.width with
    | .error e => .error e
    | .ok cur => encodeFields ds vs cur
  | _, _, cur => .ok cur

/-- The values of an RTP header record in schema order. -/
def RtpHeader.values (h : RtpHeader) : List Nat :=
  [h.version, h.padding, h.extension, h.csrcCount, h.marker, h.payloadType, h.sequenceNumber,
   h.timestamp, h.ssrc, h.extendedSequenceNumber, h.payloadLength]

/-- The RTP header record of the values of its schema. -/
def RtpHeader.ofValues (vs : List Nat) : RtpHeader where
  version := vs.getD 0 0
  padding := vs.getD 1 0
  extension := vs.getD 2 0
  csrcCount := vs.getD 3 0
  marker := vs.getD 4 0
  payloadType := vs.getD 5 0
  sequenceNumber := vs.getD 6 0
  timestamp := vs.getD 7 0
  ssrc := vs.getD 8 0
  extendedSequenceNumber := vs.getD 9 0
  payloadLength := vs.getD 10 0

/-- `decodeRtpHeader(bytes)`: the record and the 16 bytes consumed (44_packet_schemas.md R201). -/
def decodeRtpHeader (bytes : List Byte) : Except CmdError (RtpHeader × Nat) :=
  match decodeFields rtpSchema ⟨bytes, 0⟩ with
  | .error e => .error e
  | .ok (vs, _) => .ok (RtpHeader.ofValues vs, 16)

/-- `encodeRtpHeader(h)` (44_packet_schemas.md R203). -/
def encodeRtpHeader (h : RtpHeader) : Except CmdError (List Byte) :=
  match encodeFields rtpSchema h.values ⟨[], 0⟩ with
  | .error e => .error e
  | .ok cur => .ok cur.bytes

/-- `packUserData(cur, ud)`: one 10-bit word per byte, with no gap (43_subword_array.md R182). -/
def packUserData : List Byte → PrivateCursor → Except CmdError PrivateCursor
  | [], cur => .ok cur
  | b :: bs, cur =>
    match encodeField cur (udw b) 10 with
    | .error e => .error e
    | .ok cur => packUserData bs cur

/-- The received parity bits of a user-data word differ from the parity pair of its payload byte
(43_subword_array.md R184). -/
def udwMismatch (w : Nat) : Bool := w / 256 % 4 != parityPair (w % 256)

/-- `unpackUserData(cur, D)`: the payload bytes and the number of parity mismatches
(43_subword_array.md R184). -/
def unpackUserData : Nat → PrivateCursor → Except CmdError (List Byte × Nat × PrivateCursor)
  | 0, cur => .ok ([], 0, cur)
  | n + 1, cur =>
    match decodeField cur 10 with
    | .error e => .error e
    | .ok (w, cur) =>
      match unpackUserData n cur with
      | .error e => .error e
      | .ok (ud, bad, cur) => .ok (BitVec.ofNat 8 w :: ud, (udwMismatch w).toNat + bad, cur)

/-- The message record of the nine values before the user data, the user data and the checksum. -/
def AncMessage.ofParts (vs : List Nat) (ud : List Byte) (checksum : Nat) : AncMessage where
  c := vs.getD 0 0
  lineNumber := vs.getD 1 0
  horizontalOffset := vs.getD 2 0
  dataStreamFlag := vs.getD 3 0
  streamNum := vs.getD 4 0
  did := vs.getD 5 0
  sdid := vs.getD 6 0
  dataCountParity := vs.getD 7 0
  dataCount := vs.getD 8 0
  userData := ud
  checksum := checksum

/-- A received message with its advisory fields: `bad` user-data words of wrong parity, the parity of
the count word and the checksum checked here (42_computed_fields.md R155, R170). -/
def AncMessage.received (m : AncMessage) (bad : Nat) : DecodedMessage where
  msg := m
  advDcParity := m.dataCountParity != parityPair m.dataCount
  advUdwParity := bad
  advChecksum := !verifyMessage m

/-- `decodeAncMessage(cur)`; the padding is skipped and dropped (44_packet_schemas.md R210,
42_computed_fields.md R167). -/
def decodeAncMessage (cur : PrivateCursor) : Except CmdError (DecodedMessage × PrivateCursor) :=
  match decodeFields messageHeadSchema cur with
  | .error e => .error e
  | .ok (vs, cur) =>
    match unpackUserData (vs.getD 8 0) cur with
    | .error e => .error e
    | .ok (ud, bad, cur) =>
      match decodeField cur 10 with
      | .error e => .error e
      | .ok (checksum, cur) =>
        match decodeField cur (wordAlignWidth (vs.getD 8 0)) with
        | .error e => .error e
        | .ok (_, cur) => .ok ((AncMessage.ofParts vs ud checksum).received bad, cur)

/-- `n` messages one after another from the same cursor (44_packet_schemas.md R208, R209). -/
def decodeMessages : Nat → PrivateCursor → Except CmdError (List DecodedMessage × PrivateCursor)
  | 0, cur => .ok ([], cur)
  | n + 1, cur =>
    match decodeAncMessage cur with
    | .error e => .error e
    | .ok (m, cur) =>
      match decodeMessages n cur with
      | .error e => .error e
      | .ok (ms, cur) => .ok (m :: ms, cur)

/-- `decodeAncPacket(bytes)`: the record and the bytes consumed (44_packet_schemas.md R208). -/
def decodeAncPacket (bytes : List Byte) : Except CmdError (DecodedPacket × Nat) :=
  match decodeFields ancHeaderSchema ⟨bytes, 0⟩ with
  | .error e => .error e
  | .ok (vs, cur) =>
    match decodeMessages (vs.getD 0 0) cur with
    | .error e => .error e
    | .ok (ms, cur) => .ok (⟨vs.getD 0 0, vs.getD 1 0, vs.getD 2 0, ms⟩, cur.pos / 8)

/-- The values of the nine fields before the user data as the encoder writes them: the count and its
parity pair come from the user data, never from the record (42_computed_fields.md R154, R157). -/
def AncMessage.headValues (m : AncMessage) : List Nat :=
  [m.c, m.lineNumber, m.horizontalOffset, m.dataStreamFlag, m.streamNum, m.did, m.sdid,
   parityPair m.userData.length, m.userData.length]

/-- One message of `encodeAncPacket` (44_packet_schemas.md R212). -/
def encodeAncMessage (m : AncMessage) (cur : PrivateCursor) : Except CmdError PrivateCursor :=
  if m.userData.length > 255 then .error .fieldOverflow
  else
    match encodeFields messageHeadSchema m.headValues cur with
    | .error e => .error e
    | .ok cur =>
      match packUserData m.userData cur with
      | .error e => .error e
      | .ok cur =>
        match encodeField cur (checksumWord m.did m.sdid m.userData.length m.userData) 10 with
        | .error e => .error e
        | .ok cur => encodeField cur 0 (wordAlignWidth m.userData.length)

/-- The messages of `encodeAncPacket` in order (44_packet_schemas.md R212). -/
def encodeMessages : List AncMessage → PrivateCursor → Except CmdError PrivateCursor
  | [], cur => .ok cur
  | m :: ms, cur =>
    match encodeAncMessage m cur with
    | .error e => .error e
    | .ok cur => encodeMessages ms cur

/-- `encodeAncPacket(p)`: `ancCount` is the number of messages, never the record's own field
(44_packet_schemas.md R212, 42_computed_fields.md R152). -/
def encodeAncPacket (p : AncPacket) : Except CmdError (List Byte) :=
  if p.messages.length > 255 then .error .fieldOverflow
  else
    match encodeFields ancHeaderSchema [p.messages.length, p.field, p.reserved] ⟨[], 0⟩ with
    | .error e => .error e
    | .ok cur =>
      match encodeMessages p.messages cur with
      | .error e => .error e
      | .ok cur => .ok cur.bytes

end Sys2Proof.Machine
end

