-- ==== Sys2Proof/Machine/Packet.lean ====
section
/-! DEFINITION. The five packet commands (44_packet_schemas.md R202, R204, R211, R214, R216). -/

namespace Sys2Proof.Machine

/-- Place the bytes of an encode at ARG: the offset is checked first, then the encode's own errors, then
the capacity (44_packet_schemas.md R204, R214; 60_exceptions.md R257). -/
def State.placePacket (s : State) (encoded : Except CmdError (List Byte)) : Effect := do
  let k ← s.outOffsetOperand
  let bytes ← encoded
  if fitsOut (k + bytes.length) then return (s.commitPacket k bytes, .clear)
  else throw .outputFull

/-- DECRTP (44_packet_schemas.md R202). -/
def execDecrtp (s : State) : Host.Outcome State Fault Refusal :=
  s.complete do
    let bytes ← s.inPacketOperand
    let (h, t) ← decodeRtpHeader bytes
    return ({ s with recOutRtp := some h, result := BitVec.ofNat 32 t }, .clear)

/-- ENCRTP (44_packet_schemas.md R204). -/
def execEncrtp (s : State) : Host.Outcome State Fault Refusal :=
  s.complete (s.placePacket (encodeRtpHeader s.recInRtp))

/-- DECANC (44_packet_schemas.md R211). -/
def execDecanc (s : State) : Host.Outcome State Fault Refusal :=
  s.complete do
    let bytes ← s.inPacketOperand
    let (p, t) ← decodeAncPacket bytes
    return ({ s with recOutAnc := some p, result := BitVec.ofNat 32 t }, p.advisories)

/-- ENCANC (44_packet_schemas.md R214). -/
def execEncanc (s : State) : Host.Outcome State Fault Refusal :=
  s.complete (s.placePacket (encodeAncPacket s.recInAnc))

/-- VERIFYCS (44_packet_schemas.md R216). -/
def execVerifycs (store : Store) (s : State) : Host.Outcome State Fault Refusal :=
  s.complete do
    let m ← s.messageOperand store
    return ({ s with result := BitVec.ofNat 32 (verifyMessage m).toNat }, ⟨false, !verifyMessage m⟩)

end Sys2Proof.Machine
end

