-- ==== Sys2Proof/Machine/Dispatch.lean ====
section
/-! DEFINITION. The meaning of every command, one arm per constructor of Instr. -/

namespace Sys2Proof.Machine

def exec (i : Instr) (s : State) : Host.Outcome State Fault Refusal :=
  match i with
  | .cinitr => Sys2Proof.Machine.execCinitr s
  | .cinitw => Sys2Proof.Machine.execCinitw s
  | .rdbits w => Sys2Proof.Machine.execRdbits w s
  | .wrbits w => Sys2Proof.Machine.execWrbits w s
  | .getpos => Sys2Proof.Machine.execGetpos s
  | .seek => Sys2Proof.Machine.execSeek s
  | .remain => Sys2Proof.Machine.execRemain s
  | .decrtp => Sys2Proof.Machine.execDecrtp s
  | .encrtp => Sys2Proof.Machine.execEncrtp s
  | .decanc => Sys2Proof.Machine.execDecanc s
  | .encanc => Sys2Proof.Machine.execEncanc s
  | .verifycs store => Sys2Proof.Machine.execVerifycs store s

end Sys2Proof.Machine
end

