-- ==== Sys2Proof/Machine/Serve.lean ====
section
/-! DEFINITION. Serving one access of the host (10_state.md R20, R23, 20_memory.md R60), and fetching a
command word: the block fetches none itself (20_memory.md R68), a host write to CMD brings it. -/

namespace Sys2Proof.Machine

/-- A host write of `w` to CMD: run the command it encodes, or end with the error of the word check
that fails first (10_state.md R23, 30_encoding.md R76). -/
def runCommand (w : Word) (s : State) : Host.Outcome State Fault Refusal :=
  match decode w with
  | .ok i => exec i s
  | .error e => .next (s.raise e)

/-- A host write of a 32-bit register (20_memory.md R60). -/
def serveWord (offset : Nat) (data : Word) (s : State) : Host.Outcome State Fault Refusal :=
  if offset = cmdOffset then runCommand data s else .next (s.writeRegister offset data)

/-- Serve one access. -/
def serve (a : HostAccess) (s : State) : Host.Outcome State Fault Refusal :=
  match a with
  | .writeWord offset data => serveWord offset data s
  | .writeWordBytes offset b0 b1 b2 b3 => serveWord offset (busWord Config.hostBusEndian b0 b1 b2 b3) s
  | .writeByte offset data => .next (s.writeWindow offset data)
  | .readWord offset => .next { s with readData := s.readRegister offset }
  | .readByte offset => .next { s with readData := (s.readWindow offset).setWidth 32 }
  | .writeRecInRtp h => .next { s with recInRtp := h }
  | .writeRecInAnc p => .next { s with recInAnc := p }
  | .reset => .next s.resetEvent

/-- Serve the oldest access still pending; with none the block is idle and keeps its state
(60_exceptions.md R269; log 1, log 14). -/
def stepPending (s : State) : Host.Outcome State Fault Refusal :=
  match s.pending with
  | [] => .next s
  | a :: rest => serve a { s with pending := rest }

end Sys2Proof.Machine
end

