-- ==== Sys2Proof/Machine/Step.lean ====
section
/-! DEFINITION. One step of the machine: one access of the host is served. -/

namespace Sys2Proof.Machine

/-- One step (Machine/Serve.lean). -/
def step (s : State) : Host.Outcome State Fault Refusal := stepPending s

/-- `s` with a host write of the command word `w` (its low `nbits` bits) to CMD as the very next
access (log 1). -/
def State.withFetchWord (s : State) (nbits w : Nat) : State :=
  { s with pending := .writeWord 0 (BitVec.ofNat 32 (w % 2 ^ nbits)) :: s.pending }

end Sys2Proof.Machine
end

