-- ==== Sys2Proof/Machine/Assembler.lean ====
section
/-! DEFINITION. The assembly language of host programs (30_encoding.md R81) and its pseudo-instructions
(R82): each line gives the host accesses it stands for, oldest first. Text details R81 does not fix
(what separates operands, the base of a byte) are log 15. -/

namespace Sys2Proof.Machine

/-- A line of a host program (30_encoding.md R81, R82). -/
inductive AsmLine where
  /-- A command line: one word written to CMD. -/
  | command (i : Instr)
  /-- `setarg V`. -/
  | setarg (v : Word)
  /-- `setinlen V`. -/
  | setinlen (v : Word)
  /-- `inb K, B` and `inbytes K, B0 B1 ...`: bytes of INBUF from K on. -/
  | inbytes (k : Nat) (bs : List Byte)
  /-- A pseudo-instruction that sets ARG and then runs a command (R82). -/
  | withArg (v : Word) (i : Instr)
deriving DecidableEq, Repr

/-- The writes of consecutive bytes of INBUF from index `k` on. -/
def inbufWrites : Nat → List Byte → List HostAccess
  | _, [] => []
  | k, b :: bs => .writeByte (inbufBase + k) b :: inbufWrites (k + 1) bs

/-- The host accesses of a line (30_encoding.md R81, R82). -/
def AsmLine.accesses : AsmLine → List HostAccess
  | .command i => [.writeWord cmdOffset (encode i)]
  | .setarg v => [.writeWord 0x04 v]
  | .setinlen v => [.writeWord 0x10 v]
  | .inbytes k bs => inbufWrites k bs
  | .withArg v i => [.writeWord 0x04 v, .writeWord cmdOffset (encode i)]

/-- A character that separates the words of a line. -/
def isSeparator (c : Char) : Bool := c == ' ' || c == ',' || c == '\t' || c == '\r'

/-- The words of a text, `word` the reversed beginning of the current one. -/
def splitWords : List Char → List Char → List (List Char)
  | [], word => if word.isEmpty then [] else [word.reverse]
  | c :: cs, word =>
    if isSeparator c then
      if word.isEmpty then splitWords cs [] else word.reverse :: splitWords cs []
    else splitWords cs (c :: word)

/-- The words of a line, in lower case, the comment after `;` left out (30_encoding.md R81). -/
def lineWords (line : List Char) : List (List Char) :=
  splitWords ((line.takeWhile (fun c => c != ';')).map Char.toLower) []

/-- The value of a digit in a base of at most 16. -/
def digitValue (base : Nat) (c : Char) : Option Nat :=
  let v :=
    if '0'.toNat ≤ c.toNat ∧ c.toNat ≤ '9'.toNat then c.toNat - '0'.toNat
    else if 'a'.toNat ≤ c.toNat ∧ c.toNat ≤ 'f'.toNat then c.toNat - 'a'.toNat + 10
    else base
  if v < base then some v else none

/-- The value of the remaining digits after a value `acc`. -/
def digitsValue (base : Nat) : List Char → Nat → Option Nat
  | [], acc => some acc
  | c :: cs, acc =>
    match digitValue base c with
    | none => none
    | some d => digitsValue base cs (acc * base + d)

/-- A number that begins with no prefix is in the base given; `0x` makes it hexadecimal (30_encoding.md
R81). -/
def numberIn (base : Nat) : List Char → Option Nat
  | [] => none
  | ['0', 'x'] => none
  | '0' :: 'x' :: c :: cs => digitsValue 16 (c :: cs) 0
  | c :: cs => digitsValue base (c :: cs) 0

/-- A value of a register: a decimal or hexadecimal number below 2^32. -/
def wordOf (cs : List Char) : Option Word :=
  match numberIn 10 cs with
  | none => none
  | some v => if v < 2 ^ 32 then some (BitVec.ofNat 32 v) else none

/-- A width: a number from 1 to 32 (30_encoding.md R81). -/
def widthOf (cs : List Char) : Option (BitVec 6) :=
  match numberIn 10 cs with
  | none => none
  | some v => if 1 ≤ v ∧ v ≤ 32 then some (BitVec.ofNat 6 v) else none

/-- A byte, in hexadecimal as the programs of 95_test_vectors.md write them (log 15). -/
def byteOf (cs : List Char) : Option Byte :=
  match numberIn 16 cs with
  | none => none
  | some v => if v < 2 ^ 8 then some (BitVec.ofNat 8 v) else none

/-- The bytes of a list of words, none if one is no byte. -/
def bytesOf : List (List Char) → Option (List Byte)
  | [] => some []
  | w :: ws =>
    match byteOf w, bytesOf ws with
    | some b, some bs => some (b :: bs)
    | _, _ => none

/-- The store that `out` or `in` names (30_encoding.md R81). -/
def storeWord (cs : List Char) : Option Store :=
  if cs = "out".toList then some .recOut else if cs = "in".toList then some .recIn else none

/-- The command lines without operands (30_encoding.md R81). -/
def plainCommands : List (List Char × Instr) :=
  [("cinitr".toList, .cinitr), ("cinitw".toList, .cinitw), ("getpos".toList, .getpos),
   ("seek".toList, .seek), ("remain".toList, .remain), ("decrtp".toList, .decrtp),
   ("encrtp".toList, .encrtp), ("decanc".toList, .decanc), ("encanc".toList, .encanc)]

/-- The commands that take a pseudo-instruction's value in ARG (30_encoding.md R82). -/
def argCommands : List (List Char × Instr) :=
  [("seek".toList, .seek), ("decrtp".toList, .decrtp), ("encrtp".toList, .encrtp),
   ("decanc".toList, .decanc), ("encanc".toList, .encanc)]

/-- A line with the one operand `x`. -/
def parseUnary (m x : List Char) : Option AsmLine :=
  if m = "rdbits".toList ∨ m = "skip".toList then (widthOf x).map (fun w => .command (.rdbits w))
  else if m = "wrbits".toList then (widthOf x).map (fun w => .command (.wrbits w))
  else if m = "verifycs".toList then (storeWord x).map (fun st => .command (.verifycs st))
  else if m = "setarg".toList then (wordOf x).map .setarg
  else if m = "setinlen".toList then (wordOf x).map .setinlen
  else
    match argCommands.lookup m, wordOf x with
    | some i, some v => some (.withArg v i)
    | _, _ => none

/-- A line with the two operands `x` and `y`. -/
def parseBinary (m x y : List Char) : Option AsmLine :=
  if m = "wrbits".toList then
    match widthOf x, wordOf y with
    | some w, some v => some (.withArg v (.wrbits w))
    | _, _ => none
  else if m = "verifycs".toList then
    match storeWord x, wordOf y with
    | some st, some v => some (.withArg v (.verifycs st))
    | _, _ => none
  else if m = "inb".toList then
    match numberIn 10 x, byteOf y with
    | some k, some b => some (.inbytes k [b])
    | _, _ => none
  else none

/-- The line that the words of a text line stand for; none for a line outside the language. -/
def parseWords : List (List Char) → Option AsmLine
  | [] => none
  | [m] => (plainCommands.lookup m).map .command
  | m :: x :: rest =>
    if m = "inbytes".toList then
      match numberIn 10 x, bytesOf rest with
      | some k, some bs => some (.inbytes k bs)
      | _, _ => none
    else
      match rest with
      | [] => parseUnary m x
      | [y] => parseBinary m x y
      | _ => none

/-- The host accesses of a line of text: none for a line outside the language, no access for a blank or
comment line. -/
def assembleLine (line : List Char) : Option (List HostAccess) :=
  match lineWords line with
  | [] => some []
  | ws => (parseWords ws).map AsmLine.accesses

/-- The host accesses of a program, one line after another. -/
def assemble : List (List Char) → Option (List HostAccess)
  | [] => some []
  | l :: ls =>
    match assembleLine l, assemble ls with
    | some a, some b => some (a ++ b)
    | _, _ => none

/-- The state with the accesses of a program pending after those already there; none when a line is
outside the language (log 1). -/
def State.loadProgram (s : State) (lines : List (List Char)) : Option State :=
  match assemble lines with
  | none => none
  | some accesses => some { s with pending := s.pending ++ accesses }

end Sys2Proof.Machine
end

