-- ==== Sys2Proof/Safety.lean ====
section
/-! DEFINITION. What the block keeps in every state: the cursor invariant (10_state.md R30), the bounds of
INLEN and OUTLEN (R28, R29), the canonical form of the memories, the legal STATUS words (R26, R27,
60_exceptions.md R250, R251) and the shape of RecOut (10_state.md R38 to R42). -/

namespace Sys2Proof.Machine

/-- Stream bit `p` of the bytes a function gives: bit `7 - p mod 8` of byte `p div 8` (00_scope.md R14). -/
def streamBit (byte : Nat → Byte) (p : Nat) : Bool := (byte (p / 8)).getLsbD (7 - p % 8)

/-- The value of the `n`-bit field at stream position `p`: the sum of `BitAt(B, p+i) × 2^(n-1-i)`
(20_memory.md R51). -/
def fieldAt (byte : Nat → Byte) (p n : Nat) : Nat :=
  (Finset.range n).sum (fun i => (streamBit byte (p + i)).toNat * 2 ^ (n - 1 - i))

/-- The cursor invariant of 10_state.md R30. -/
def State.cursorLegal (s : State) : Prop :=
  match s.mode with
  | .idle => s.pos = 0
  | .read => s.pos ≤ 8 * s.inlen
  | .write => s.pos ≤ 8 * s.outlen

/-- INLEN and OUTLEN lie within their capacities (10_state.md R28, R29). -/
def State.lengthsLegal (s : State) : Prop := s.inlen ≤ Config.inCap ∧ s.outlen ≤ Config.outCap

/-- Both memories are canonical, hold only indices within their capacities, and every byte of the output
`OUTBUF[0 .. OUTLEN-1]` has been written since reset. -/
def State.memoriesLegal (s : State) : Prop :=
  s.inbuf.wf = true ∧ s.outbuf.wf = true ∧
  (∀ c ∈ s.inbuf, c.1 < Config.inCap) ∧ (∀ c ∈ s.outbuf, c.1 < Config.outCap) ∧
  ∀ k < s.outlen, (s.outbuf.read? k).isSome = true

/-- STATUS is one of the words a command can leave: an error code 1 to 9 without an advisory, or ERR = 0
with any advisories (10_state.md R26, R27, 60_exceptions.md R250, R251). -/
def statusLegal (w : Word) : Prop :=
  (∃ e, w = statusWord (errCode e) .clear) ∨ ∃ a, w = statusWord 0 a

/-- Every field of an RTP header record fits its wire width (10_state.md R37, R42). -/
def RtpHeader.fits (h : RtpHeader) : Prop :=
  ∀ x ∈ (rtpSchema.map FieldDesc.width).zip h.values, x.2 < 2 ^ x.1

/-- The plain fields of a message fit their wire widths (10_state.md R39). -/
def AncMessage.plainFits (m : AncMessage) : Prop :=
  m.c < 2 ∧ m.lineNumber < 2 ^ 11 ∧ m.horizontalOffset < 2 ^ 12 ∧ m.dataStreamFlag < 2 ∧
  m.streamNum < 2 ^ 7 ∧ m.did < 2 ^ 10 ∧ m.sdid < 2 ^ 10

/-- A message of RecOut: every scalar fits, `dataCount` is the number of payload bytes, and the advisory
fields are what its own fields give (10_state.md R39, R40, R42). -/
def DecodedMessage.legal (m : DecodedMessage) : Prop :=
  m.msg.plainFits ∧ m.msg.dataCountParity < 4 ∧ m.msg.dataCount < 256 ∧ m.msg.checksum < 1024 ∧
  m.msg.userData.length = m.msg.dataCount ∧
  (m.advDcParity = true ↔ m.msg.dataCountParity ≠ parityPair m.msg.dataCount) ∧
  m.advUdwParity ≤ m.msg.dataCount ∧
  m.advChecksum = !verifyMessage m.msg

/-- A packet of RecOut (10_state.md R38, R42). -/
def DecodedPacket.legal (p : DecodedPacket) : Prop :=
  p.ancCount < 256 ∧ p.field < 4 ∧ p.reserved < 2 ^ 22 ∧ p.messages.length = p.ancCount ∧
  ∀ m ∈ p.messages, m.legal

/-- RecOut holds `none` or legal records (10_state.md R38 to R42). -/
def State.recOutLegal (s : State) : Prop :=
  (∀ h, s.recOutRtp = some h → h.fits) ∧ ∀ p, s.recOutAnc = some p → p.legal

/-- Every invariant of the block at once. -/
def State.Legal (s : State) : Prop :=
  s.cursorLegal ∧ s.lengthsLegal ∧ s.memoriesLegal ∧ statusLegal s.status ∧ s.recOutLegal

/-- Writes of the pairs (value, width) one after another from position `p` (40_bit_cursor.md R112). -/
def writeAll (room : Nat → Bool) : List (Nat × Nat) → List Byte → Nat → Except CmdError (List Byte × Nat)
  | [], B, p => .ok (B, p)
  | (v, n) :: rest, B, p =>
    match writeBitsF B p n v room with
    | .error e => .error e
    | .ok (B', p') => writeAll room rest B' p'

/-- Reads of the widths one after another from position `p` (40_bit_cursor.md R112). -/
def readAll (B : List Byte) : List Nat → Nat → Except CmdError (List Nat)
  | [], _ => .ok []
  | n :: rest, p =>
    match readBitsF B p n with
    | .error e => .error e
    | .ok (v, p') =>
      match readAll B rest p' with
      | .error e => .error e
      | .ok vs => .ok (v :: vs)

/-- A message record the encoder accepts: its plain fields fit and it has at most 255 payload bytes
(44_packet_schemas.md R221). -/
def AncMessage.encodable (m : AncMessage) : Prop := m.plainFits ∧ m.userData.length ≤ 255

/-- A packet record the encoder accepts (44_packet_schemas.md R221). -/
def AncPacket.encodable (p : AncPacket) : Prop :=
  p.messages.length ≤ 255 ∧ p.field < 4 ∧ p.reserved < 2 ^ 22 ∧ ∀ m ∈ p.messages, m.encodable

/-- The message that decoding the encoding of `m` gives: the derived fields recomputed, every advisory
clear (44_packet_schemas.md R221). -/
def AncMessage.canonical (m : AncMessage) : DecodedMessage where
  msg := { m with
    dataCountParity := parityPair m.userData.length
    dataCount := m.userData.length
    checksum := checksumWord m.did m.sdid m.userData.length m.userData }
  advDcParity := false
  advUdwParity := 0
  advChecksum := false

/-- The packet that decoding the encoding of `p` gives (44_packet_schemas.md R221). -/
def AncPacket.canonical (p : AncPacket) : DecodedPacket :=
  ⟨p.messages.length, p.field, p.reserved, p.messages.map AncMessage.canonical⟩

/-- The byte at which message `k` of a payload starts, given by the counts that stand in the payload itself: right
after the 4-byte header or the message before (44_packet_schemas.md R208, R209, R213). `field p n` is the value of
the `n` bits at stream position `p` of the payload. -/
def messageStart (field : Nat → Nat → Nat) : Nat → Nat
  | 0 => 4
  | k + 1 => messageStart field k + msgBytes (field (8 * messageStart field k + 54) 8)

/-- The number of bytes `p` encodes to (44_packet_schemas.md R213). -/
def AncPacket.byteLength (p : AncPacket) : Nat :=
  4 + (p.messages.map (fun m => msgBytes m.userData.length)).sum

end Sys2Proof.Machine
end

