-- ==== Sys2Proof/Certificates/Slice0/Obligations.lean ====
section
/-! DEFINITION. The statements about the block that the provers settle. -/

open Sys2Proof Sys2Proof.Machine

/-! ### The command word -/

/-- Words of every family, with the commands 30_encoding.md R77 gives them. -/
def Obligations.CommandWordsDecodeAsWritten : Prop :=
  decode 0x00000001 = .ok .cinitr ∧ decode 0x00000002 = .ok .cinitw ∧
  decode 0x00000303 = .ok (.rdbits 3) ∧ decode 0x00002003 = .ok (.rdbits 32) ∧
  decode 0x00000704 = .ok (.wrbits 7) ∧ decode 0x00000005 = .ok .getpos ∧
  decode 0x00000006 = .ok .seek ∧ decode 0x00000007 = .ok .remain ∧
  decode 0x00000010 = .ok .decrtp ∧ decode 0x00000011 = .ok .encrtp ∧
  decode 0x00000012 = .ok .decanc ∧ decode 0x00000013 = .ok .encanc ∧
  decode 0x00000014 = .ok (.verifycs .recOut) ∧ decode 0x00004014 = .ok (.verifycs .recIn) ∧
  decode 0x00000015 = .error .illegalCommand ∧ decode 0x00004003 = .error .illegalCommand

/-- The decoder reads a command from a word exactly when the word is the command's encoding: no bit of a word is
dropped, no word has two commands (30_encoding.md R70, R77). Commands here are those of any W: that the decoder takes
a RDBITS or WRBITS word with W = 0 or 33 to 63, which R76 step 4 rejects, is the model's choice (log 9); the meaning
of the command rejects it. -/
def Obligations.DecodeAndEncodeAgree : Prop :=
  ∀ (w : Word) (i : Instr), decode w = .ok i ↔ encode i = w

/-- The decoder accepts exactly the words of the patterns of 30_encoding.md R77, each for its own operation. That it
takes a RDBITS or WRBITS word with any W, also one that R76 step 4 rejects, is the model's choice (log 9); the meaning
of the command rejects it. -/
def Obligations.DecoderAcceptsExactlyTheOpcodeTable : Prop :=
  ∀ (w : Word) (o : Op),
    (∃ i, decode w = .ok i ∧ i.op = o) ↔ ∃ r ∈ opcodeTable, r.op = o ∧ r.fits w = true

/-- A host write to CMD of a word with an OP outside the table, or with RSV, S or W set where it must be 0, leaves
STATUS = 5 and changes nothing else (30_encoding.md R78). Every other word decodes to a command, which runs (R76,
R77); that this takes in the RDBITS and WRBITS words with W = 0 or 33 to 63, whose meaning raises the ILLEGAL_WIDTH of
R76 step 4, is the model's choice (log 9). -/
def Obligations.IllegalWordsChangeOnlyStatus : Prop :=
  ∀ (s : State) (w : Word),
    let op := w.toNat % 2 ^ 8
    let illegal :=
      op = 0x00 ∨ (0x08 ≤ op ∧ op ≤ 0x0F) ∨ 0x15 ≤ op ∨ w.toNat / 2 ^ 15 ≠ 0 ∨
      (w.toNat / 2 ^ 14 % 2 ≠ 0 ∧ op ≠ 0x14) ∨
      (w.toNat / 2 ^ 8 % 2 ^ 6 ≠ 0 ∧ op ≠ 0x03 ∧ op ≠ 0x04)
    (illegal → runCommand w s = .next { s with status := 5 }) ∧
    (¬ illegal → ∃ i, decode w = .ok i ∧ runCommand w s = exec i s)

/-- The checks of a word written to CMD in the order of 30_encoding.md R76, the first that fails picking the error;
only a word that passes all five runs its operation. -/
def Obligations.WordChecksRunInOrder : Prop :=
  ∀ (s : State) (w : Word),
    let op := w.toNat % 2 ^ 8
    let width := w.toNat / 2 ^ 8 % 2 ^ 6
    let ended := fun (status : Word) => runCommand w s = .next { s with status := status }
    if ¬ ((0x01 ≤ op ∧ op ≤ 0x07) ∨ (0x10 ≤ op ∧ op ≤ 0x14)) then ended 5
    else if w.toNat / 2 ^ 15 ≠ 0 then ended 5
    else if w.toNat / 2 ^ 14 % 2 ≠ 0 ∧ op ≠ 0x14 then ended 5
    else if (op = 0x03 ∨ op = 0x04) ∧ (width < 1 ∨ 32 < width) then ended 4
    else if op ≠ 0x03 ∧ op ≠ 0x04 ∧ width ≠ 0 then ended 5
    else ∃ i, decode w = .ok i ∧ i.wellFormed = true ∧ i.op.code.toNat = op ∧ runCommand w s = exec i s

/-! ### Steps and host accesses -/

/-- When the oldest pending access is a write of a word to CMD and the word decodes to a command, the step is that
command, run on the state with the access taken off; so too when the bus moves the word byte by byte. A write of any
other word to CMD is `runCommand`. CMD itself reads 0 (10_state.md R23; the queue is the model's own choice, log 1,
and so are the bus bytes, log 6). -/
def Obligations.StepRunsTheDecodedCommand : Prop :=
  ∀ (s : State) (w : Word) (rest : List HostAccess),
    (s.pending = .writeWord 0 w :: rest → step s = runCommand w { s with pending := rest }) ∧
    (∀ i, decode w = .ok i → s.pending = .writeWord 0 w :: rest → step s = exec i { s with pending := rest }) ∧
    (∀ i b0 b1 b2 b3, decode w = .ok i → busWord Config.hostBusEndian b0 b1 b2 b3 = w →
      s.pending = .writeWordBytes 0 b0 b1 b2 b3 :: rest → step s = exec i { s with pending := rest }) ∧
    s.readRegister 0 = 0

/-- Every step serves exactly the oldest pending access and always gives a next state; with none pending
the block keeps its state (10_state.md R20, 20_memory.md R65; the queue is the model's own, log 1 and log
14). -/
def Obligations.StepServesTheOldestAccess : Prop :=
  ∀ s : State, ∃ t, step s = .next t ∧ t.pending = s.pending.tail ∧ (s.pending = [] → t = s) ∧
    ∀ a rest, s.pending = a :: rest → step s = serve a { s with pending := rest }

/-- A host write of INLEN clamps the value to IN_CAP and sends a reader to IDLE; no command writes INLEN
(10_state.md R28). -/
def Obligations.InlenWriteClampsAndStopsAReader : Prop :=
  (∀ (s : State) (v : Word), serveWord 0x10 v s = .next { s with
      inlen := min v.toNat Config.inCap
      mode := if s.mode = .read then .idle else s.mode
      pos := if s.mode = .read then 0 else s.pos }) ∧
  ∀ (s t : State) (w : Word), runCommand w s = .next t → t.inlen = s.inlen

/-- Host accesses other than commands (20_memory.md R60): reads change nothing and answer the same again, a write of
ARG or of a byte of INBUF changes only that, writes of read-only places are ignored, and a register written as four
bytes is written as the word they make (R55). The model's choices: the access queue (log 1), the four bytes as one
access and their order (log 6), RecIn written a whole record at a time (log 7), a byte write at a register offset and a
word write in a window or at a misaligned offset ignored like any other offset (log 8), and the field `readData` that
holds what a read returned (log 10). -/
def Obligations.HostAccessSideEffects : Prop :=
  ∀ (s : State) (rest : List HostAccess),
    (∀ off, s.pending = .readWord off :: rest →
      step s = .next { s with pending := rest, readData := s.readRegister off } ∧
      ∀ d, ({ s with pending := rest, readData := d } : State).readRegister off = s.readRegister off) ∧
    (∀ off, s.pending = .readByte off :: rest →
      step s = .next { s with pending := rest, readData := (s.readWindow off).setWidth 32 } ∧
      ∀ d, ({ s with pending := rest, readData := d } : State).readWindow off = s.readWindow off) ∧
    (∀ v, s.pending = .writeWord 0x04 v :: rest → step s = .next { s with pending := rest, arg := v }) ∧
    (∀ off v, s.pending = .writeWord off v :: rest → off ≠ 0x00 → off ≠ 0x04 → off ≠ 0x10 →
      step s = .next { s with pending := rest }) ∧
    (∀ k b, s.pending = .writeByte (0x100000 + k) b :: rest → k < Config.inCap →
      ∃ t, step s = .next t ∧ t = { s with pending := rest, inbuf := t.inbuf } ∧
        ∀ j, t.inbufByte j = if j = k then b else s.inbufByte j) ∧
    (∀ off b, s.pending = .writeByte off b :: rest → (off < 0x100000 ∨ 0x100000 + Config.inCap ≤ off) →
      step s = .next { s with pending := rest }) ∧
    (∀ off b0 b1 b2 b3, s.pending = .writeWordBytes off b0 b1 b2 b3 :: rest →
      step s = step { s with pending := .writeWord off (busWord Config.hostBusEndian b0 b1 b2 b3) :: rest } ∧
      (off = 0x04 → step s = .next { s with pending := rest, arg := busWord Config.hostBusEndian b0 b1 b2 b3 }) ∧
      (off = 0x10 → ∃ t, step s = .next t ∧ t.pending = rest ∧
        t.inlen = min (busWord Config.hostBusEndian b0 b1 b2 b3).toNat Config.inCap) ∧
      (off ≠ 0x00 → off ≠ 0x04 → off ≠ 0x10 → step s = .next { s with pending := rest })) ∧
    (∀ h, s.pending = .writeRecInRtp h :: rest → step s = .next { s with pending := rest, recInRtp := h }) ∧
    (∀ p, s.pending = .writeRecInAnc p :: rest → step s = .next { s with pending := rest, recInAnc := p })

/-- The register map and the buffer windows: INBUF byte `k` at 0x100000 + k, OUTBUF byte `k` at 0x200000 +
k, every other offset reads 0 (20_memory.md R61 to R63; log 8 for an access of the wrong size). -/
def Obligations.AddressMapReads : Prop :=
  ∀ s : State,
    s.readRegister 0x04 = s.arg ∧ s.readRegister 0x08 = s.result ∧ s.readRegister 0x0C = s.status ∧
    (s.lengthsLegal → (s.readRegister 0x10).toNat = s.inlen ∧ (s.readRegister 0x14).toNat = s.outlen) ∧
    (s.lengthsLegal → s.cursorLegal → (s.readRegister 0x18).toNat = s.pos) ∧
    s.readRegister 0x1C = (match s.mode with | .idle => 0 | .read => 1 | .write => 2) ∧
    (s.readRegister 0x20).toNat = Config.inCap ∧ (s.readRegister 0x24).toNat = Config.outCap ∧
    (∀ off, (off % 4 ≠ 0 ∨ 0x28 ≤ off ∨ off = 0) → s.readRegister off = 0) ∧
    (∀ k < Config.inCap, s.readWindow (0x100000 + k) = s.inbufByte k) ∧
    (∀ k < Config.outCap, s.readWindow (0x200000 + k) = s.outbufByte k) ∧
    ∀ off, (off < 0x100000 ∨ (0x100000 + Config.inCap ≤ off ∧ off < 0x200000) ∨
      0x200000 + Config.outCap ≤ off) → s.readWindow off = 0

/-- The bus moves a word as four bytes and makes the same word of them, in either byte order
(20_memory.md R55; log 6). -/
def Obligations.BusBytesMakeTheWordAgain : Prop :=
  ∀ (e : Config.Endian) (w : Word), ∃ b0 b1 b2 b3, busBytes e w = [b0, b1, b2, b3] ∧
    busWord e b0 b1 b2 b3 = w

/-- The reset event puts every piece of state the spec gives a reset value at that value, from any state,
in one step; INBUF, OUTBUF and RecIn are free draws and nothing is said of them (10_state.md R47). -/
def Obligations.ResetEventGivesTheResetValues : Prop :=
  let atReset := fun (t : State) =>
    t.arg = 0 ∧ t.result = 0 ∧ t.status = 0 ∧ t.inlen = 0 ∧ t.outlen = 0 ∧ t.mode = .idle ∧ t.pos = 0 ∧
    t.recOutRtp = none ∧ t.recOutAnc = none ∧
    (t.readRegister 0x20).toNat = Config.inCap ∧ (t.readRegister 0x24).toNat = Config.outCap
  atReset State.reset ∧ ∀ s : State, ∃ t, serve .reset s = .next t ∧ atReset t

/-- A pseudo-instruction that sets ARG and then runs a command does just that, in two steps
(30_encoding.md R82). -/
def Obligations.PseudoInstructionSetsArgThenRuns : Prop :=
  ∀ (s : State) (v : Word) (i : Instr) (rest : List HostAccess),
    s.pending = (AsmLine.withArg v i).accesses ++ rest →
    ∃ t, step s = .next t ∧ t = { s with arg := v, pending := t.pending } ∧
      step t = exec i { s with arg := v, pending := rest }

/-! ### What every command keeps -/

/-- Every word written to CMD ends with success, with advisories only if it is a DECANC or a VERIFYCS, or with an
error that leaves STATUS = (its code, no advisory) and nothing else changed (60_exceptions.md R250, R258). -/
def Obligations.CommandsSucceedOrChangeOnlyStatus : Prop :=
  ∀ (w : Word) (s : State), ∃ t, runCommand w s = .next t ∧
    ((∃ e : CmdError, t = { s with status := statusWord (errCode e) ⟨false, false⟩ } ∧
        statusErr t.status ≠ 0) ∨
      (statusErr t.status = 0 ∧ t.status = statusWord 0 ⟨statusAdvParity t.status, statusAdvChecksum t.status⟩ ∧
        (statusAdvParity t.status = true → decode w = .ok .decanc) ∧
        (statusAdvChecksum t.status = true → decode w = .ok .decanc ∨ ∃ st, decode w = .ok (.verifycs st))))

/-- Which error each command can end with (60_exceptions.md R251; ILLEGAL_COMMAND is the word checks' and no
meaning raises it). -/
def Obligations.EachCommandRaisesOnlyItsErrors : Prop :=
  ∀ (i : Instr) (s t : State), exec i s = .next t → statusErr t.status ≠ 0 →
    ∃ e : CmdError, t.status = statusWord (errCode e) ⟨false, false⟩ ∧
      match e with
      | .truncatedInput => (∃ w, i = .rdbits w) ∨ i = .decrtp ∨ i = .decanc
      | .fieldOverflow => i = .encrtp ∨ i = .encanc
      | .valueOutOfRange => ∃ w, i = .wrbits w
      | .illegalWidth => i.wellFormed = false ∧ ((∃ w, i = .rdbits w) ∨ ∃ w, i = .wrbits w)
      | .illegalCommand => False
      | .wrongMode => (∃ w, i = .rdbits w) ∨ (∃ w, i = .wrbits w) ∨ i = .getpos ∨ i = .seek ∨ i = .remain
      | .seekOutOfRange => i = .seek ∨ i = .decrtp ∨ i = .encrtp ∨ i = .decanc ∨ i = .encanc
      | .outputFull => (∃ w, i = .wrbits w) ∨ i = .encrtp ∨ i = .encanc
      | .indexOutOfRange => ∃ st, i = .verifycs st

/-- What no command writes: ARG, INLEN, INBUF and RecIn, and the host's side of the model. -/
def Obligations.NoCommandWritesItsInputs : Prop :=
  ∀ (i : Instr) (s t : State), exec i s = .next t →
    t.arg = s.arg ∧ t.inlen = s.inlen ∧ t.inbuf = s.inbuf ∧ (∀ k, t.inbufByte k = s.inbufByte k) ∧
    t.recInRtp = s.recInRtp ∧ t.recInAnc = s.recInAnc ∧
    t.pending = s.pending ∧ t.readData = s.readData ∧ t.resets = s.resets

/-- The frame of the commands that store nothing: CINITR, RDBITS, GETPOS, SEEK, REMAIN, DECRTP, DECANC and
VERIFYCS leave OUTLEN and every byte of both buffers as they were, read as the array holds it or as the
host reads it. -/
def Obligations.NonStoringCommandsKeepEveryByte : Prop :=
  ∀ (i : Instr) (s t : State), exec i s = .next t →
    (i = .cinitr ∨ (∃ w, i = .rdbits w) ∨ i = .getpos ∨ i = .seek ∨ i = .remain ∨ i = .decrtp ∨
      i = .decanc ∨ ∃ st, i = .verifycs st) →
    t.outlen = s.outlen ∧ t.outbuf = s.outbuf ∧ (∀ k, t.outbufCell k = s.outbufCell k) ∧
    (∀ k, t.outbufByte k = s.outbufByte k) ∧ ∀ off, t.readWindow off = s.readWindow off

/-- Which commands may write which result registers and records; every other command, and every command
that fails, leaves them (10_state.md R25, R36; 44_packet_schemas.md R223). -/
def Obligations.ResultsWrittenOnlyByTheirCommands : Prop :=
  ∀ (i : Instr) (s t : State), exec i s = .next t →
    ((statusErr t.status ≠ 0 ∨ i = .cinitr ∨ i = .cinitw ∨ (∃ w, i = .wrbits w) ∨ i = .seek) →
      t.result = s.result) ∧
    ((statusErr t.status ≠ 0 ∨ i ≠ .decrtp) → t.recOutRtp = s.recOutRtp) ∧
    ((statusErr t.status ≠ 0 ∨ i ≠ .decanc) → t.recOutAnc = s.recOutAnc)

/-- The packet commands and the host's cursor and stores: decodes never write OUTBUF, OUTLEN, RecIn or the
cursor; encodes never write INBUF, RecIn or RecOut and move only a WRITE cursor, to IDLE, when they
succeed; VERIFYCS writes only RESULT and STATUS (44_packet_schemas.md R223). -/
def Obligations.PacketCommandsKeepTheHostsState : Prop :=
  ∀ (s t : State),
    ((exec .decrtp s = .next t ∨ exec .decanc s = .next t) →
      t = { s with recOutRtp := t.recOutRtp, recOutAnc := t.recOutAnc, result := t.result, status := t.status }) ∧
    ((exec .encrtp s = .next t ∨ exec .encanc s = .next t) →
      t = { s with outbuf := t.outbuf, outlen := t.outlen, mode := t.mode, pos := t.pos, result := t.result,
                   status := t.status, outDraws := t.outDraws } ∧
      t.mode = (if s.mode = .write ∧ statusErr t.status = 0 then .idle else s.mode) ∧
      t.pos = (if s.mode = .write ∧ statusErr t.status = 0 then 0 else s.pos)) ∧
    (∀ st, exec (.verifycs st) s = .next t → t = { s with result := t.result, status := t.status })

/-- A command runs the same whatever STATUS holds (60_exceptions.md R260, 10_state.md R44). -/
def Obligations.StatusNeverAffectsACommand : Prop :=
  ∀ (i : Instr) (s : State) (w : Word), exec i { s with status := w } = exec i s

/-- No command reads a byte of INBUF at INLEN or above: with other bytes there, every command does the same
(10_state.md R33). -/
def Obligations.BytesBeyondInlenAreNeverRead : Prop :=
  ∀ (i : Instr) (s : State) (m : Memory),
    (∀ k < s.inlen, ({ s with inbuf := m } : State).inbufByte k = s.inbufByte k) →
    ∃ t, exec i s = .next t ∧ exec i { s with inbuf := m } = .next { t with inbuf := m }

/-! ### The Bit Cursor commands -/

/-- CINITR, word 1: a reader at position 0, in every state (40_bit_cursor.md R101). -/
def Obligations.CinitrStartsAReader : Prop :=
  decode 1 = .ok .cinitr ∧
  ∀ s : State, exec .cinitr s = .next { s with mode := .read, pos := 0, status := 0 }

/-- CINITW, word 2: a writer over an empty output, in every state; the OUTBUF bytes do not change
(40_bit_cursor.md R102). -/
def Obligations.CinitwStartsAWriterFromEmpty : Prop :=
  decode 2 = .ok .cinitw ∧
  ∀ s : State, ∃ t, exec .cinitw s = .next t ∧
    t = { s with mode := .write, pos := 0, outlen := 0, status := 0, outDraws := t.outDraws } ∧
    ∀ k, t.outbufCell k = s.outbufCell k

/-- RDBITS n, for n from 1 to 32: WRONG_MODE without a reader, TRUNCATED_INPUT when fewer than n bits remain,
else RESULT is the next n bits of INBUF, the first the most significant, and the position moves by n
(40_bit_cursor.md R104). -/
def Obligations.RdbitsReadsTheNextBits : Prop :=
  ∀ (w : BitVec 6) (s : State), 1 ≤ w.toNat → w.toNat ≤ 32 →
    decode (BitVec.ofNat 32 (0x03 + 2 ^ 8 * w.toNat)) = .ok (.rdbits w) ∧
    (s.mode ≠ .read → exec (.rdbits w) s = .next { s with status := 6 }) ∧
    (s.mode = .read → 8 * s.inlen < s.pos + w.toNat → exec (.rdbits w) s = .next { s with status := 1 }) ∧
    (s.mode = .read → s.pos + w.toNat ≤ 8 * s.inlen →
      ∃ t, exec (.rdbits w) s = .next t ∧
        t = { s with result := t.result, pos := s.pos + w.toNat, status := 0 } ∧
        t.result.toNat = fieldAt s.inbufByte s.pos w.toNat)

/-- WRBITS n, for n from 1 to 32: WRONG_MODE without a writer, then VALUE_OUT_OF_RANGE when ARG needs more than
n bits, then OUTPUT_FULL when the output would need more than OUT_CAP bytes; else exactly the n bits at the
position become ARG, most significant first, a new byte's other bits are 0 and every other bit of the output
stays (40_bit_cursor.md R106). -/
def Obligations.WrbitsWritesExactlyItsBits : Prop :=
  ∀ (w : BitVec 6) (s : State), 1 ≤ w.toNat → w.toNat ≤ 32 →
    let n := w.toNat
    let len := max s.outlen ((s.pos + n + 7) / 8)
    decode (BitVec.ofNat 32 (0x04 + 2 ^ 8 * n)) = .ok (.wrbits w) ∧
    (s.mode ≠ .write → exec (.wrbits w) s = .next { s with status := 6 }) ∧
    (s.mode = .write → 2 ^ n ≤ s.arg.toNat → exec (.wrbits w) s = .next { s with status := 3 }) ∧
    (s.mode = .write → s.arg.toNat < 2 ^ n → Config.outCap < len →
      exec (.wrbits w) s = .next { s with status := 8 }) ∧
    (s.mode = .write → s.arg.toNat < 2 ^ n → len ≤ Config.outCap →
      ∃ t, exec (.wrbits w) s = .next t ∧
        t = { s with outbuf := t.outbuf, outlen := len, pos := s.pos + n, status := 0, outDraws := t.outDraws } ∧
        (∀ q < 8 * len, streamBit t.outbufByte q =
          if s.pos ≤ q ∧ q < s.pos + n then s.arg.toNat.testBit (n - 1 - (q - s.pos))
          else if q < 8 * s.outlen then streamBit s.outbufByte q else false) ∧
        ∀ k, len ≤ k → t.outbufCell k = s.outbufCell k)

/-- RDBITS and WRBITS with W = 0 or W above 32 end with ILLEGAL_WIDTH in every state (30_encoding.md R72). -/
def Obligations.IllegalWidthsAreRejected : Prop :=
  ∀ (w : BitVec 6) (s : State), (w.toNat = 0 ∨ 33 ≤ w.toNat) →
    exec (.rdbits w) s = .next { s with status := 4 } ∧
    exec (.wrbits w) s = .next { s with status := 4 }

/-- GETPOS: WRONG_MODE when IDLE, else RESULT is the position (40_bit_cursor.md R107). -/
def Obligations.GetposReturnsThePosition : Prop :=
  decode 5 = .ok .getpos ∧
  ∀ s : State,
    (s.mode = .idle → exec .getpos s = .next { s with status := 6 }) ∧
    (s.mode ≠ .idle → s.cursorLegal → s.lengthsLegal →
      ∃ t, exec .getpos s = .next t ∧ t = { s with result := t.result, status := 0 } ∧
        t.result.toNat = s.pos)

/-- SEEK: WRONG_MODE when IDLE, SEEK_OUT_OF_RANGE past the end of the cursor's buffer, else the position is ARG;
the end itself is legal and OUTLEN does not change (40_bit_cursor.md R108). -/
def Obligations.SeekMovesWithinTheBuffer : Prop :=
  decode 6 = .ok .seek ∧
  ∀ s : State,
    let len := if s.mode = .read then s.inlen else s.outlen
    (s.mode = .idle → exec .seek s = .next { s with status := 6 }) ∧
    (s.mode ≠ .idle → 8 * len < s.arg.toNat → exec .seek s = .next { s with status := 7 }) ∧
    (s.mode ≠ .idle → s.arg.toNat ≤ 8 * len →
      exec .seek s = .next { s with pos := s.arg.toNat, status := 0 })

/-- REMAIN: WRONG_MODE when IDLE, else RESULT is the number of bits from the position to the end of the cursor's
buffer (40_bit_cursor.md R109). -/
def Obligations.RemainCountsTheBitsLeft : Prop :=
  decode 7 = .ok .remain ∧
  ∀ s : State,
    (s.mode = .idle → exec .remain s = .next { s with status := 6 }) ∧
    (s.mode ≠ .idle → s.cursorLegal → s.lengthsLegal →
      ∃ t, exec .remain s = .next t ∧ t = { s with result := t.result, status := 0 } ∧
        t.result.toNat + s.pos = 8 * (if s.mode = .read then s.inlen else s.outlen))

/-- The round trip of the cursor: the bits a write put at a position are read back there; and a sequence of writes
from position 0 of any buffer, growing it or overwriting it in place, is read back from position 0
(40_bit_cursor.md R112). -/
def Obligations.CursorRoundTrip : Prop :=
  (∀ (B B' : List Byte) (p p' n v : Nat) (room : Nat → Bool),
    writeBitsF B p n v room = .ok (B', p') → readBitsF B' p n = .ok (v, p + n)) ∧
  ∀ (fields : List (Nat × Nat)) (B B' : List Byte) (p : Nat) (room : Nat → Bool),
    writeAll room fields B 0 = .ok (B', p) → readAll B' (fields.map Prod.snd) 0 = .ok (fields.map Prod.fst)

/-! ### The field codec and the computed fields -/

/-- A field written at a position reads back as the same value, for every width from 1 to 32 and every value
that fits (41_field_codec.md R134). -/
def Obligations.FieldRoundTrip : Prop :=
  ∀ (cur : PrivateCursor) (v w : Nat), 1 ≤ w → w ≤ 32 → v < 2 ^ w →
    ∃ cur', encodeField cur v w = .ok cur' ∧
      decodeField ⟨cur'.bytes, cur.pos⟩ w = .ok (v, ⟨cur'.bytes, cur.pos + w⟩)

/-- The parity pair of an 8-bit value: bit 1 is the even-parity bit, bit 0 its inverse, and the value with the
even-parity bit has an even number of set bits (42_computed_fields.md R171). -/
def Obligations.ParityPairIsEvenParityAndItsInverse : Prop :=
  ∀ x < 256, parityPair x % 2 = 1 - parityPair x / 2 % 2 ∧ parityPair x / 2 % 2 = ep x ∧
    parityPair x < 4 ∧
    (((List.range 8).filter (fun i => Nat.testBit x i)).length + ep x) % 2 = 0

/-- The padding width depends on the count modulo 16, is even and from 2 to 32, and is 32 exactly when the count
is 12 modulo 16 (42_computed_fields.md R165); with it every ANC data packet is a multiple of 32 bits (R168). -/
def Obligations.PaddingAlignsEveryPacket : Prop :=
  ∀ d, wordAlignWidth d = wordAlignWidth (d % 16) ∧ wordAlignWidth d % 2 = 0 ∧
    2 ≤ wordAlignWidth d ∧ wordAlignWidth d ≤ 32 ∧ (wordAlignWidth d = 32 ↔ d % 16 = 12) ∧
    (72 + 10 * d + wordAlignWidth d) % 32 = 0

/-- The checksum word: its low 9 bits are the sum, modulo 512, of the low 9 bits of DID, SDID, the count word and
every user-data word as the encoder writes them, and bit 9 is the inverse of bit 8; bit 9 of DID or SDID never
matters (42_computed_fields.md R158 to R162). -/
def Obligations.ChecksumWordSumsNineBitWords : Prop :=
  ∀ (did sdid : Nat) (ud : List Byte), ud.length ≤ 255 →
    checksumWord did sdid ud.length ud % 512 =
      (did + sdid + (parityPair ud.length * 256 + ud.length) + (ud.map udw).sum) % 512 ∧
    checksumWord did sdid ud.length ud / 512 = 1 - checksumWord did sdid ud.length ud / 256 % 2 ∧
    checksumWord did sdid ud.length ud < 1024 ∧
    checksumWord (did + 512) sdid ud.length ud = checksumWord did sdid ud.length ud ∧
    checksumWord did (sdid + 512) ud.length ud = checksumWord did sdid ud.length ud

/-- The user data round trip: packed words unpack to the same bytes with no mismatch; and whatever was received,
each byte kept is the low 8 bits of its word (43_subword_array.md R188). -/
def Obligations.UserDataRoundTrip : Prop :=
  (∀ (ud : List Byte) (cur : PrivateCursor), ud.length ≤ 255 →
    ∃ cur', packUserData ud cur = .ok cur' ∧
      unpackUserData ud.length ⟨cur'.bytes, cur.pos⟩ =
        .ok (ud, 0, ⟨cur'.bytes, cur.pos + 10 * ud.length⟩)) ∧
  ∀ (d bad : Nat) (ud : List Byte) (cur cur' : PrivateCursor),
    unpackUserData d cur = .ok (ud, bad, cur') →
    ud.length = d ∧ ∀ i, ∀ h : i < ud.length,
      (ud[i]'h).toNat = bitsValue cur.bytes (cur.pos + 10 * i) 10 % 256

/-! ### The packet commands -/

/-- DECRTP: SEEK_OUT_OF_RANGE past INLEN, TRUNCATED_INPUT with fewer than 16 bytes, else RecOut.rtp is the header
of INBUF at ARG, each field at the bit offsets of 30_encoding.md R83, whatever its value, and RESULT is 16
(44_packet_schemas.md R202). -/
def Obligations.DecrtpReadsTheHeaderFields : Prop :=
  decode 0x10 = .ok .decrtp ∧
  ∀ s : State,
    let k := s.arg.toNat
    let f := fun p n => fieldAt s.inbufByte (8 * k + p) n
    (s.inlen < k → exec .decrtp s = .next { s with status := 7 }) ∧
    (k ≤ s.inlen → s.inlen < k + 16 → exec .decrtp s = .next { s with status := 1 }) ∧
    (k + 16 ≤ s.inlen → exec .decrtp s = .next { s with
      recOutRtp := some ⟨f 0 2, f 2 1, f 3 1, f 4 4, f 8 1, f 9 7, f 16 16, f 32 32, f 64 32, f 96 16, f 112 16⟩
      result := 16
      status := 0 })

/-- ENCRTP: SEEK_OUT_OF_RANGE past OUTLEN, then FIELD_OVERFLOW when a field of RecIn.rtp does not fit, then
OUTPUT_FULL past OUT_CAP; else the 16 bytes of OUTBUF at ARG hold each field at the bit offsets of
30_encoding.md R83, OUTLEN is ARG + 16, a WRITE cursor is IDLE, RESULT is 16, and every byte outside those 16
keeps its place (44_packet_schemas.md R204). -/
def Obligations.EncrtpWritesTheHeaderFields : Prop :=
  decode 0x11 = .ok .encrtp ∧
  ∀ s : State,
    let k := s.arg.toNat
    let h := s.recInRtp
    (s.outlen < k → exec .encrtp s = .next { s with status := 7 }) ∧
    (k ≤ s.outlen → ¬ h.fits → exec .encrtp s = .next { s with status := 2 }) ∧
    (k ≤ s.outlen → h.fits → Config.outCap < k + 16 → exec .encrtp s = .next { s with status := 8 }) ∧
    (k ≤ s.outlen → h.fits → k + 16 ≤ Config.outCap →
      ∃ t, exec .encrtp s = .next t ∧
        t = { s with
          outbuf := t.outbuf, outlen := k + 16, result := 16, status := 0, outDraws := t.outDraws
          mode := if s.mode = .write then .idle else s.mode
          pos := if s.mode = .write then 0 else s.pos } ∧
        (let f := fun p n => fieldAt t.outbufByte (8 * k + p) n
         h = ⟨f 0 2, f 2 1, f 3 1, f 4 4, f 8 1, f 9 7, f 16 16, f 32 32, f 64 32, f 96 16, f 112 16⟩) ∧
        (∀ x < k, t.outbufByte x = s.outbufByte x) ∧
        ∀ x, (x < k ∨ k + 16 ≤ x) → t.outbufCell x = s.outbufCell x)

/-- DECANC: SEEK_OUT_OF_RANGE past INLEN; TRUNCATED_INPUT exactly when the bytes from ARG to INLEN end before the
payload that its own counts announce does; else, whatever the parity bits, the checksums and the padding are, RecOut.anc
is the record `decodeAncPacket` gives, RESULT is the bytes of that payload, and the advisory bits of STATUS say
whether some message has a mismatch (44_packet_schemas.md R211). -/
def Obligations.DecancStoresTheDecodedPayload : Prop :=
  decode 0x12 = .ok .decanc ∧
  ∀ s : State,
    let k := s.arg.toNat
    let f := fun p n => fieldAt s.inbufByte (8 * k + p) n
    let n := messageStart f (f 0 8)
    let whole := k + 4 ≤ s.inlen ∧ k + n ≤ s.inlen
    (s.inlen < k → exec .decanc s = .next { s with status := 7 }) ∧
    (k ≤ s.inlen → ¬ whole → exec .decanc s = .next { s with status := 1 }) ∧
    (whole → ∃ p t, decodeAncPacket (s.inBytes.drop k) = .ok (p, n) ∧ exec .decanc s = .next t ∧
      t = { s with recOutAnc := some p, result := t.result, status := t.status } ∧
      (s.lengthsLegal → t.result.toNat = n) ∧ statusErr t.status = 0 ∧
      (statusAdvParity t.status = true ↔ ∃ m ∈ p.messages, m.advDcParity = true ∨ 0 < m.advUdwParity) ∧
      (statusAdvChecksum t.status = true ↔ ∃ m ∈ p.messages, m.advChecksum = true))

/-- Bytes that hold the whole payload their counts announce decode, and the header's fields and every message's stand
at the bit offsets of 30_encoding.md R85 and R86 from where the message starts, one message right after another; the
received parity bits, checksum and user-data parity are kept or counted and never checked to stop the decode
(44_packet_schemas.md R208 to R210). -/
def Obligations.DecodedFieldsStandAtTheirOffsets : Prop :=
  ∀ bytes : List Byte,
    let f := bitsValue bytes
    4 ≤ bytes.length → messageStart f (f 0 8) ≤ bytes.length →
    ∃ p, decodeAncPacket bytes = .ok (p, messageStart f (f 0 8)) ∧
      p.ancCount = f 0 8 ∧ p.field = f 8 2 ∧ p.reserved = f 10 22 ∧ p.messages.length = p.ancCount ∧
      ∀ k, ∀ h : k < p.messages.length,
        let m := p.messages[k]'h
        let a := 8 * messageStart f k
        let d := m.msg.dataCount
        m.msg.c = f a 1 ∧ m.msg.lineNumber = f (a + 1) 11 ∧ m.msg.horizontalOffset = f (a + 12) 12 ∧
        m.msg.dataStreamFlag = f (a + 24) 1 ∧ m.msg.streamNum = f (a + 25) 7 ∧
        m.msg.did = f (a + 32) 10 ∧ m.msg.sdid = f (a + 42) 10 ∧
        m.msg.dataCountParity = f (a + 52) 2 ∧ d = f (a + 54) 8 ∧
        m.msg.userData = (List.range d).map (fun i => BitVec.ofNat 8 (f (a + 62 + 10 * i) 10)) ∧
        m.msg.checksum = f (a + 62 + 10 * d) 10 ∧
        m.advUdwParity = ((List.range d).filter (fun i => udwMismatch (f (a + 62 + 10 * i) 10))).length ∧
        m.advDcParity = (m.msg.dataCountParity != parityPair d) ∧ m.advChecksum = !verifyMessage m.msg

/-- A decode succeeds exactly when the bytes hold the 4-byte header and every message the counts announce, down to the
last bit of padding, and ends with TRUNCATED_INPUT otherwise; nothing else stops it. It consumes those bytes: 4 and the
bytes of each message, a multiple of 4 (44_packet_schemas.md R208, R211, R213; 60_exceptions.md R252). -/
def Obligations.DecodeConsumesWholePackets : Prop :=
  ∀ bytes : List Byte,
    let f := bitsValue bytes
    let whole := 4 ≤ bytes.length ∧ messageStart f (f 0 8) ≤ bytes.length
    (¬ whole → decodeAncPacket bytes = .error .truncatedInput) ∧
    (whole → ∃ p n, decodeAncPacket bytes = .ok (p, n)) ∧
    ∀ p n, decodeAncPacket bytes = .ok (p, n) →
      n = messageStart f (f 0 8) ∧ n = 4 + (p.messages.map (fun m => msgBytes m.msg.dataCount)).sum ∧
      n % 4 = 0 ∧ n ≤ bytes.length

/-- A decode reads only the bytes it consumes: what follows them changes nothing, and any shorter prefix ends with
TRUNCATED_INPUT (44_packet_schemas.md R217, 60_exceptions.md R252). -/
def Obligations.DecodeReadsOnlyWhatItConsumes : Prop :=
  ∀ (bytes : List Byte) (p : DecodedPacket) (n : Nat), decodeAncPacket bytes = .ok (p, n) →
    (∀ rest, decodeAncPacket (bytes.take n ++ rest) = .ok (p, n)) ∧
    ∀ j < n, decodeAncPacket (bytes.take j) = .error .truncatedInput

/-- No decode ends with FIELD_OVERFLOW, and every scalar a decode stores fits its width (44_packet_schemas.md
R219). -/
def Obligations.DecodesNeverOverflow : Prop :=
  ∀ bytes : List Byte,
    (∀ e, decodeRtpHeader bytes = .error e → e = .truncatedInput) ∧
    (∀ e, decodeAncPacket bytes = .error e → e = .truncatedInput) ∧
    (∀ h n, decodeRtpHeader bytes = .ok (h, n) → h.fits ∧ n = 16) ∧
    ∀ p n, decodeAncPacket bytes = .ok (p, n) → p.legal

/-- ENCANC: SEEK_OUT_OF_RANGE past OUTLEN, then FIELD_OVERFLOW when RecIn.anc cannot be encoded, then OUTPUT_FULL
past OUT_CAP; else the T bytes of OUTBUF at ARG are those of `encodeAncPacket`, OUTLEN is ARG + T, RESULT is T,
a WRITE cursor is IDLE, and every byte outside those T keeps its place (44_packet_schemas.md R214). -/
def Obligations.EncancPlacesTheEncodedPayload : Prop :=
  decode 0x13 = .ok .encanc ∧
  ∀ s : State,
    let k := s.arg.toNat
    let n := s.recInAnc.byteLength
    (s.outlen < k → exec .encanc s = .next { s with status := 7 }) ∧
    (k ≤ s.outlen → ¬ s.recInAnc.encodable → exec .encanc s = .next { s with status := 2 }) ∧
    (k ≤ s.outlen → s.recInAnc.encodable → Config.outCap < k + n →
      exec .encanc s = .next { s with status := 8 }) ∧
    (k ≤ s.outlen → s.recInAnc.encodable → k + n ≤ Config.outCap →
      ∃ t bytes, exec .encanc s = .next t ∧ encodeAncPacket s.recInAnc = .ok bytes ∧ bytes.length = n ∧
        t = { s with
          outbuf := t.outbuf, outlen := k + n, result := t.result, status := 0, outDraws := t.outDraws
          mode := if s.mode = .write then .idle else s.mode
          pos := if s.mode = .write then 0 else s.pos } ∧
        t.result.toNat = n ∧
        (∀ j < n, bytes[j]? = some (t.outbufByte (k + j))) ∧
        (∀ x < k, t.outbufByte x = s.outbufByte x) ∧
        ∀ x, (x < k ∨ k + n ≤ x) → t.outbufCell x = s.outbufCell x)

/-- Every padding bit the encoder writes is 0 (42_computed_fields.md R166, 44_packet_schemas.md R215). -/
def Obligations.EncodedPaddingIsZero : Prop :=
  ∀ (p : AncPacket) (bytes : List Byte), encodeAncPacket p = .ok bytes →
    ∀ k, ∀ h : k < p.messages.length,
      let a := 32 + 8 * ((p.messages.take k).map (fun m => msgBytes m.userData.length)).sum
      let d := (p.messages[k]'h).userData.length
      ∀ q, a + 72 + 10 * d ≤ q → q < a + msgBits d → bitAt bytes q = false

/-- The encoder never reads the record's `ancCount`, `dataCountParity`, `dataCount` or `checksum`
(44_packet_schemas.md R215, 42_computed_fields.md R152, R154, R157, R163). -/
def Obligations.EncoderIgnoresDerivedFields : Prop :=
  ∀ (p : AncPacket) (n : Nat) (g : AncMessage → Nat × Nat × Nat),
    encodeAncPacket { p with
      ancCount := n
      messages := p.messages.map (fun m =>
        { m with dataCountParity := (g m).1, dataCount := (g m).2.1, checksum := (g m).2.2 }) } =
      encodeAncPacket p

/-- An empty payload is exactly 4 bytes: a DECANC of a payload with `ancCount` = 0 consumes 4 bytes and gives no
message, and an ENCANC of an empty message list produces 4 bytes (44_packet_schemas.md R218). -/
def Obligations.EmptyPayloadIsFourBytes : Prop :=
  (∀ s : State, s.arg.toNat + 4 ≤ s.inlen → s.inbufByte s.arg.toNat = 0 →
    ∃ t p, exec .decanc s = .next t ∧ t = { s with recOutAnc := some p, result := 4, status := 0 } ∧
      p.ancCount = 0 ∧ p.messages = []) ∧
  ∀ s : State, s.recInAnc.messages = [] → s.recInAnc.encodable → s.arg.toNat ≤ s.outlen →
    s.arg.toNat + 4 ≤ Config.outCap →
    ∃ t, exec .encanc s = .next t ∧ t.status = 0 ∧ t.result = 4 ∧ t.outlen = s.arg.toNat + 4

/-- VERIFYCS, for both stores: INDEX_OUT_OF_RANGE when the store holds no such message, else RESULT is 1 and STATUS 0
when the record's count is that of its user data, at most 255, and all 10 bits of its checksum are the checksum
word, and RESULT is 0 with ADV_CHECKSUM otherwise (44_packet_schemas.md R216, 42_computed_fields.md R169). -/
def Obligations.VerifycsChecksTheMessage : Prop :=
  decode 0x14 = .ok (.verifycs .recOut) ∧ decode 0x4014 = .ok (.verifycs .recIn) ∧
  ∀ (st : Store) (s : State),
    let messages := match st with
      | .recIn => s.recInAnc.messages
      | .recOut => (s.recOutAnc.map (fun (p : DecodedPacket) => p.messages.map DecodedMessage.msg)).getD []
    (messages.length ≤ s.arg.toNat → exec (.verifycs st) s = .next { s with status := 9 }) ∧
    ∀ m, messages[s.arg.toNat]? = some m →
      let ok := m.userData.length ≤ 255 ∧ m.dataCount = m.userData.length ∧
        m.checksum = checksumWord m.did m.sdid m.userData.length m.userData
      (ok → exec (.verifycs st) s = .next { s with result := 1, status := 0 }) ∧
      (¬ ok → exec (.verifycs st) s = .next { s with result := 0, status := 0x200 })

/-- The round trip: ENCANC of a record that fits, then DECANC, in any block, of input bytes that are its output,
gives the record back in `field`, `reserved` and every message's plain fields and user data, with the derived fields
recomputed, every message verifying and every advisory clear (44_packet_schemas.md R221, 42_computed_fields.md
R173). -/
def Obligations.EncancThenDecancGivesTheRecordBack : Prop :=
  ∀ s : State, s.arg.toNat ≤ s.outlen → s.recInAnc.encodable →
    s.arg.toNat + s.recInAnc.byteLength ≤ Config.outCap →
    ∃ t, exec .encanc s = .next t ∧ t.status = 0 ∧ t.result.toNat = s.recInAnc.byteLength ∧
      (∀ u : State, u.arg.toNat + s.recInAnc.byteLength ≤ u.inlen →
        (∀ j < s.recInAnc.byteLength, u.inbufByte (u.arg.toNat + j) = t.outbufByte (s.arg.toNat + j)) →
        exec .decanc u = .next { u with
          recOutAnc := some s.recInAnc.canonical, result := t.result, status := 0 }) ∧
      ∀ m ∈ s.recInAnc.canonical.messages,
        verifyMessage m.msg = true ∧ m.advDcParity = false ∧ m.advUdwParity = 0 ∧ m.advChecksum = false

/-- The round trip of the RTP header: ENCRTP of a header that fits, then DECRTP of its output, gives the header
back (44_packet_schemas.md R201, R203; 41_field_codec.md R134). -/
def Obligations.EncrtpThenDecrtpGivesTheHeaderBack : Prop :=
  ∀ s : State, s.arg.toNat ≤ s.outlen → s.recInRtp.fits → s.arg.toNat + 16 ≤ Config.outCap →
    ∃ t, exec .encrtp s = .next t ∧ t.status = 0 ∧
      ∀ u : State, u.arg.toNat + 16 ≤ u.inlen →
        (∀ j < 16, u.inbufByte (u.arg.toNat + j) = t.outbufByte (s.arg.toNat + j)) →
        exec .decrtp u = .next { u with recOutRtp := some s.recInRtp, result := 16, status := 0 }

/-! ### Invariants -/

/-- Every step keeps the block legal: the cursor inside its buffer, INLEN and OUTLEN within their capacities, both
memories canonical and the output written, a legal STATUS word, and RecOut `none` or records whose scalars fit and
whose advisories are what their own fields give (10_state.md R26 to R30, R38 to R42; the form of the memories is the
model's own choice, log 2 and log 3). -/
def Obligations.EveryStepKeepsTheBlockLegal : Prop :=
  ∀ s t : State, s.Legal → step s = .next t → t.Legal

/-- The block is legal at reset (10_state.md R47; the form of the memories is the model's own choice, log 2 and
log 3). -/
def Obligations.ResetIsLegal : Prop := State.reset.Legal

/-- Every command keeps the cursor within its buffer, on its own (10_state.md R30, 40_bit_cursor.md R110). -/
def Obligations.CommandsKeepTheCursorLegal : Prop :=
  ∀ (i : Instr) (s t : State), s.cursorLegal → exec i s = .next t → t.cursorLegal

/-! ### Advisories -/

/-- No parity bit, no user-data word, no checksum and no padding bit ever stops a decode: two byte strings of one length
that agree in the message count and in every message's `dataCount`, whatever their other bits are, both decode, to
the same number of messages and bytes, or neither does (44_packet_schemas.md R211; 42_computed_fields.md R155, R167,
R170). -/
def Obligations.MismatchesNeverStopADecode : Prop :=
  ∀ B C : List Byte, B.length = C.length → bitsValue B 0 8 = bitsValue C 0 8 →
    (∀ k < bitsValue B 0 8, let a := 8 * messageStart (bitsValue B) k + 54
      bitsValue B a 8 = bitsValue C a 8) →
    ((∃ r, decodeAncPacket B = .ok r) ↔ ∃ r, decodeAncPacket C = .ok r) ∧
    ∀ p n q m, decodeAncPacket B = .ok (p, n) → decodeAncPacket C = .ok (q, m) →
      n = m ∧ p.messages.length = q.messages.length ∧
      p.messages.map (fun x => x.msg.dataCount) = q.messages.map (fun x => x.msg.dataCount)
end

