-- ==== Sys2Proof/Laws/BitCursor.lean ====
section
/-! SUPPORT. What the bit operations do to each stream bit, and what readBitsF and writeBitsF can
answer. -/

namespace Sys2Proof.Machine

theorem getLsbD_setByteBit (x : Byte) (i j : Nat) (b : Bool) (hi : i < 8) (hj : j < 8) :
    (setByteBit x i b).getLsbD j = if j = i then b else x.getLsbD j := by
  unfold setByteBit
  cases b
  · rw [if_neg (by simp)]
    by_cases h : j = i
    · simp [h]
    · simp only [BitVec.getLsbD_and, BitVec.getLsbD_not, BitVec.getLsbD_shiftLeft, BitVec.getLsbD_one]
      rw [if_neg h]
      by_cases h2 : j < i
      · simp [h2, hj]
      · have : j - i ≠ 0 := by omega
        simp [hj, this]
  · rw [if_pos rfl]
    by_cases h : j = i
    · simp [h, hi]
    · simp only [BitVec.getLsbD_or, BitVec.getLsbD_shiftLeft, BitVec.getLsbD_one]
      rw [if_neg h]
      by_cases h2 : j < i
      · simp [h2]
      · have : j - i ≠ 0 := by omega
        simp [this]

@[simp] theorem length_setBit (B : List Byte) (p : Nat) (b : Bool) : (setBit B p b).length = B.length := by
  simp [setBit]

@[simp] theorem length_putBits (B : List Byte) (p n v k : Nat) : (putBits B p n v k).length = B.length := by
  induction k with
  | zero => rfl
  | succ k ih => simp [putBits, ih]

/-- A stream bit past the end of the buffer reads as 0. -/
theorem bitAt_of_le (B : List Byte) (q : Nat) (h : 8 * B.length ≤ q) : bitAt B q = false := by
  unfold bitAt
  rw [List.getD_eq_default _ _ (by omega)]
  simp

/-- A stream bit after one bit was set. -/
theorem bitAt_setBit (B : List Byte) (p q : Nat) (b : Bool) (h : p < 8 * B.length) :
    bitAt (setBit B p b) q = if q = p then b else bitAt B q := by
  unfold bitAt setBit
  by_cases hd : q / 8 = p / 8
  · have hl : p / 8 < B.length := by omega
    rw [hd]
    simp only [List.getD_eq_getElem?_getD, List.getElem?_set_self hl, Option.getD_some]
    rw [getLsbD_setByteBit _ _ _ _ (by omega) (by omega)]
    by_cases hq : q = p
    · simp [hq]
    · rw [if_neg hq, if_neg (by omega)]
  · rw [if_neg (by rintro rfl; exact hd rfl)]
    simp only [List.getD_eq_getElem?_getD, List.getElem?_set_ne (Ne.symm hd)]

/-- Stream bits after the first `k` of `n` bits of `v` were written. -/
theorem bitAt_putBits (B : List Byte) (p n v k q : Nat) (h : p + k ≤ 8 * B.length) :
    bitAt (putBits B p n v k) q =
      if p ≤ q ∧ q < p + k then v.testBit (n - 1 - (q - p)) else bitAt B q := by
  induction k with
  | zero => rw [if_neg (by omega)]; rfl
  | succ k ih =>
    rw [putBits, bitAt_setBit _ _ _ _ (by simp; omega), ih (by omega)]
    by_cases hq : q = p + k
    · subst hq
      rw [if_pos rfl, if_pos (by omega)]
      congr 2
      omega
    · rw [if_neg hq]
      by_cases h2 : p ≤ q ∧ q < p + k
      · rw [if_pos h2, if_pos (by omega)]
      · rw [if_neg h2, if_neg (by omega)]

@[simp] theorem length_growTo (B : List Byte) (len : Nat) (h : B.length ≤ len) :
    (growTo B len).length = len := by
  simp [growTo]; omega

/-- Growing a buffer changes no stream bit: new bytes are 0. -/
theorem bitAt_growTo (B : List Byte) (len q : Nat) : bitAt (growTo B len) q = bitAt B q := by
  unfold bitAt growTo
  congr 1
  simp only [List.getD_eq_getElem?_getD]
  by_cases h : q / 8 < B.length
  · rw [List.getElem?_append_left h]
  · rw [List.getElem?_append_right (by omega), List.getElem?_eq_none (l := B) (by omega),
      List.getElem?_replicate]
    split <;> rfl

theorem le_grownLength (len p n : Nat) : len ≤ grownLength len p n ∧ p + n ≤ 8 * grownLength len p n := by
  unfold grownLength
  omega

/-- The value of bits depends on those bits only. -/
theorem bitsValue_congr (B C : List Byte) (p q n : Nat)
    (h : ∀ i < n, bitAt B (p + i) = bitAt C (q + i)) : bitsValue B p n = bitsValue C q n := by
  induction n with
  | zero => rfl
  | succ n ih => rw [bitsValue, bitsValue, ih (fun i hi => h i (by omega)), h n (by omega)]

theorem bitsValue_lt (B : List Byte) (p n : Nat) : bitsValue B p n < 2 ^ n := by
  induction n with
  | zero => simp [bitsValue]
  | succ n ih =>
    rw [bitsValue, Nat.pow_succ]
    have := Bool.toNat_le (bitAt B (p + n))
    omega

/-- The bits of the value read, most significant first. -/
theorem testBit_bitsValue (B : List Byte) (p n i : Nat) (h : i < n) :
    (bitsValue B p n).testBit (n - 1 - i) = bitAt B (p + i) := by
  induction n with
  | zero => omega
  | succ n ih =>
    rw [bitsValue]
    by_cases hi : i = n
    · subst hi
      rw [show i + 1 - 1 - i = 0 by omega, Nat.testBit_zero]
      cases bitAt B (p + i) <;> simp
    · rw [show n + 1 - 1 - i = (n - 1 - i) + 1 by omega, Nat.testBit_succ, ← ih (by omega)]
      congr 1
      have := Bool.toNat_le (bitAt B (p + n))
      omega

/-- A value whose bits stand at a position is the value read there. -/
theorem bitsValue_eq (B : List Byte) (p n v : Nat) (hv : v < 2 ^ n)
    (h : ∀ i < n, bitAt B (p + i) = v.testBit (n - 1 - i)) : bitsValue B p n = v := by
  induction n generalizing v with
  | zero => simp [bitsValue]; omega
  | succ n ih =>
    rw [bitsValue, ih (v / 2) (by rw [Nat.pow_succ] at hv; omega)]
    · rw [h n (by omega), show n + 1 - 1 - n = 0 by omega, Nat.testBit_zero]
      by_cases hb : v % 2 = 1
      · simp [hb]; omega
      · simp [hb]; omega
    · intro i hi
      rw [h i (by omega), show n + 1 - 1 - i = (n - 1 - i) + 1 by omega, Nat.testBit_succ]

/-- All that readBitsF can answer. -/
theorem readBitsF_cases (B : List Byte) (p n : Nat) :
    (8 * B.length < p + n ∧ readBitsF B p n = .error .truncatedInput) ∨
      (p + n ≤ 8 * B.length ∧ readBitsF B p n = .ok (bitsValue B p n, p + n)) := by
  unfold readBitsF
  by_cases h : p + n > 8 * B.length
  · exact Or.inl ⟨h, if_pos h⟩
  · exact Or.inr ⟨by omega, if_neg h⟩

theorem readBitsF_ok (B : List Byte) (p n : Nat) (h : p + n ≤ 8 * B.length) :
    readBitsF B p n = .ok (bitsValue B p n, p + n) := if_neg (by omega)

theorem readBitsF_error (B : List Byte) (p n : Nat) (h : 8 * B.length < p + n) :
    readBitsF B p n = .error .truncatedInput := if_pos h

/-- All that writeBitsF can answer. -/
theorem writeBitsF_cases (B : List Byte) (p n v : Nat) (room : Nat → Bool) :
    (2 ^ n ≤ v ∧ writeBitsF B p n v room = .error .valueOutOfRange) ∨
      (v < 2 ^ n ∧ room (grownLength B.length p n) = false ∧
        writeBitsF B p n v room = .error .outputFull) ∨
      (v < 2 ^ n ∧ room (grownLength B.length p n) = true ∧
        writeBitsF B p n v room =
          .ok (putBits (growTo B (grownLength B.length p n)) p n v n, p + n)) := by
  unfold writeBitsF
  by_cases h : v ≥ 2 ^ n
  · exact Or.inl ⟨h, if_pos h⟩
  · rw [if_neg h]
    by_cases hr : room (grownLength B.length p n) = false
    · exact Or.inr (Or.inl ⟨by omega, hr, if_pos hr⟩)
    · exact Or.inr (Or.inr ⟨by omega, by simpa using hr, if_neg hr⟩)

/-- What the buffer of a successful write holds: its length and every stream bit. -/
theorem writeBitsF_ok (B B' : List Byte) (p p' n v : Nat) (room : Nat → Bool)
    (h : writeBitsF B p n v room = .ok (B', p')) :
    v < 2 ^ n ∧ p' = p + n ∧ B'.length = grownLength B.length p n ∧
      room (grownLength B.length p n) = true ∧
      ∀ q, bitAt B' q = if p ≤ q ∧ q < p + n then v.testBit (n - 1 - (q - p)) else bitAt B q := by
  have hg := le_grownLength B.length p n
  rcases writeBitsF_cases B p n v room with ⟨_, h1⟩ | ⟨_, _, h1⟩ | ⟨hv, hr, h1⟩
  · rw [h1] at h; cases h
  · rw [h1] at h; cases h
  · rw [h1] at h
    cases h
    refine ⟨hv, rfl, ?_, hr, fun q => ?_⟩
    · rw [length_putBits, length_growTo _ _ hg.1]
    · rw [bitAt_putBits _ _ _ _ _ _ (by rw [length_growTo _ _ hg.1]; exact hg.2), bitAt_growTo]

end Sys2Proof.Machine
end

