-- ==== Sys2Proof/Laws/Schema.lean ====
section
/-! SUPPORT. What the field codec answers: one field read or written, the fields of a schema, the 10-bit
words, the messages. -/

namespace Sys2Proof.Machine

/-- All that decodeField can answer (41_field_codec.md R132). -/
theorem decodeField_cases (cur : PrivateCursor) (w : Nat) :
    (8 * cur.bytes.length < cur.pos + w ∧ decodeField cur w = .error .truncatedInput) ∨
      (cur.pos + w ≤ 8 * cur.bytes.length ∧
        decodeField cur w = .ok (bitsValue cur.bytes cur.pos w, ⟨cur.bytes, cur.pos + w⟩)) := by
  unfold decodeField
  rcases readBitsF_cases cur.bytes cur.pos w with ⟨h, hr⟩ | ⟨h, hr⟩ <;> rw [hr]
  · exact Or.inl ⟨h, rfl⟩
  · exact Or.inr ⟨h, rfl⟩

/-- All that encodeField can answer: the buffer grows to hold the field, exactly its bits change
(41_field_codec.md R133). -/
theorem encodeField_cases (cur : PrivateCursor) (v w : Nat) :
    (2 ^ w ≤ v ∧ encodeField cur v w = .error .fieldOverflow) ∨
      (v < 2 ^ w ∧ ∃ B, encodeField cur v w = .ok ⟨B, cur.pos + w⟩ ∧
        B.length = grownLength cur.bytes.length cur.pos w ∧
        ∀ q, bitAt B q =
          if cur.pos ≤ q ∧ q < cur.pos + w then v.testBit (w - 1 - (q - cur.pos)) else bitAt cur.bytes q) := by
  unfold encodeField
  by_cases h : v ≥ 2 ^ w
  · exact Or.inl ⟨h, if_pos h⟩
  · rw [if_neg h]
    rcases writeBitsF_cases cur.bytes cur.pos w v (fun _ => true) with ⟨h1, _⟩ | ⟨_, h1, _⟩ | ⟨_, _, hr⟩
    · exact absurd h1 h
    · exact absurd h1 (by simp)
    · obtain ⟨_, _, hl, _, hb⟩ := writeBitsF_ok _ _ _ _ _ _ _ hr
      rw [hr]
      exact Or.inr ⟨by omega, _, rfl, hl, hb⟩

/-- The number of bits of a schema's fields. -/
def schemaBits (ds : List FieldDesc) : Nat := (ds.map FieldDesc.width).sum

/-- All that reading the fields of a schema can answer: values that fit, one after another. -/
theorem decodeFields_cases (ds : List FieldDesc) (cur : PrivateCursor) :
    (8 * cur.bytes.length < cur.pos + schemaBits ds ∧ decodeFields ds cur = .error .truncatedInput) ∨
      (cur.pos + schemaBits ds ≤ 8 * cur.bytes.length ∨ ds = []) ∧
        ∃ vs, decodeFields ds cur = .ok (vs, ⟨cur.bytes, cur.pos + schemaBits ds⟩) ∧
          vs.length = ds.length ∧
          ∀ k, ∀ h : k < ds.length,
            vs[k]? = some (bitsValue cur.bytes (cur.pos + schemaBits (ds.take k)) (ds[k]'h).width) := by
  induction ds generalizing cur with
  | nil => exact Or.inr ⟨Or.inr rfl, [], rfl, rfl, fun k h => absurd h (by simp)⟩
  | cons d ds ih =>
    simp only [decodeFields]
    have hs : schemaBits (d :: ds) = d.width + schemaBits ds := by simp [schemaBits]
    rcases decodeField_cases cur d.width with ⟨h, hr⟩ | ⟨h, hr⟩ <;> rw [hr]
    · exact Or.inl ⟨by omega, rfl⟩
    · rcases ih ⟨cur.bytes, cur.pos + d.width⟩ with ⟨h1, h2⟩ | ⟨h1, vs, h2, h3, h4⟩ <;> simp only [h2]
      · exact Or.inl ⟨by simp only at h1; omega, trivial⟩
      · refine Or.inr ⟨Or.inl ?_, _, congrArg Except.ok (Prod.ext rfl ?_), by simp [h3], ?_⟩
        · rcases h1 with h1 | h1
          · simp only at h1
            omega
          · subst h1
            simpa [schemaBits] using h
        · simp only [hs, Nat.add_assoc]
        · intro k hk
          cases k with
          | zero => simp [schemaBits]
          | succ k =>
            have := h4 k (by simpa using hk)
            simp only [List.getElem?_cons_succ, List.getElem_cons_succ, this]
            simp [schemaBits, Nat.add_assoc]

/-- A user-data word has 10 bits (43_subword_array.md R181). -/
theorem udw_lt (b : Byte) : udw b < 1024 := by
  revert b
  decide

end Sys2Proof.Machine
end

