-- ==== Sys2Proof/Laws/Decoding.lean ====
section
/-! SUPPORT. What the record decoders of 44_packet_schemas.md answer, in closed form: the record that stands
at a bit position, and the one condition under which the bytes are too short. -/

namespace Sys2Proof.Machine

/-- The `d` 10-bit user-data words from stream position `p` on. -/
def udwsAt (bytes : List Byte) (p d : Nat) : List Nat := (List.range d).map (fun i => bitsValue bytes (p + 10 * i) 10)

theorem udwsAt_succ (bytes : List Byte) (p d : Nat) :
    udwsAt bytes p (d + 1) = bitsValue bytes p 10 :: udwsAt bytes (p + 10) d := by
  simp only [udwsAt, List.range_succ_eq_map, List.map_cons, List.map_map, Nat.mul_zero, Nat.add_zero]
  congr 1
  refine List.map_congr_left fun i _ => ?_
  simp only [Function.comp]
  congr 1
  omega

/-- All that unpacking user data can answer (43_subword_array.md R184). -/
theorem unpackUserData_cases (d : Nat) (cur : PrivateCursor) :
    (0 < d ∧ 8 * cur.bytes.length < cur.pos + 10 * d ∧ unpackUserData d cur = .error .truncatedInput) ∨
      ((d = 0 ∨ cur.pos + 10 * d ≤ 8 * cur.bytes.length) ∧
        unpackUserData d cur = .ok ((udwsAt cur.bytes cur.pos d).map (BitVec.ofNat 8),
          ((udwsAt cur.bytes cur.pos d).filter udwMismatch).length, ⟨cur.bytes, cur.pos + 10 * d⟩)) := by
  induction d generalizing cur with
  | zero => exact Or.inr ⟨Or.inl rfl, rfl⟩
  | succ d ih =>
    simp only [unpackUserData]
    rcases decodeField_cases cur 10 with ⟨h, hr⟩ | ⟨h, hr⟩ <;> rw [hr]
    · exact Or.inl ⟨by omega, by omega, rfl⟩
    · rcases ih ⟨cur.bytes, cur.pos + 10⟩ with ⟨h0, h1, h2⟩ | ⟨h1, h2⟩ <;> simp only [h2]
      · exact Or.inl ⟨by omega, by simp only at h1; omega, trivial⟩
      · refine Or.inr ⟨Or.inr ?_, ?_⟩
        · rcases h1 with h1 | h1
          · omega
          · simp only at h1
            omega
        · rw [udwsAt_succ, List.map_cons, List.filter_cons]
          refine congrArg Except.ok (Prod.ext rfl (Prod.ext ?_ ?_))
          · cases udwMismatch (bitsValue cur.bytes cur.pos 10) <;> simp [Nat.add_comm]
          · simp only [PrivateCursor.mk.injEq, true_and]
            omega

/-- The message record whose ANC data packet starts at stream position `a` (30_encoding.md R86). -/
def messageAt (bytes : List Byte) (a : Nat) : AncMessage where
  c := bitsValue bytes a 1
  lineNumber := bitsValue bytes (a + 1) 11
  horizontalOffset := bitsValue bytes (a + 12) 12
  dataStreamFlag := bitsValue bytes (a + 24) 1
  streamNum := bitsValue bytes (a + 25) 7
  did := bitsValue bytes (a + 32) 10
  sdid := bitsValue bytes (a + 42) 10
  dataCountParity := bitsValue bytes (a + 52) 2
  dataCount := bitsValue bytes (a + 54) 8
  userData := (udwsAt bytes (a + 62) (bitsValue bytes (a + 54) 8)).map (BitVec.ofNat 8)
  checksum := bitsValue bytes (a + 62 + 10 * bitsValue bytes (a + 54) 8) 10

/-- The received message at stream position `a`, with its advisory fields. -/
def receivedAt (bytes : List Byte) (a : Nat) : DecodedMessage :=
  (messageAt bytes a).received ((udwsAt bytes (a + 62) (bitsValue bytes (a + 54) 8)).filter udwMismatch).length

/-- The values of the nine fields of a message's head. -/
theorem decodeMessageHead_cases (cur : PrivateCursor) :
    (8 * cur.bytes.length < cur.pos + 62 ∧ decodeFields messageHeadSchema cur = .error .truncatedInput) ∨
      (cur.pos + 62 ≤ 8 * cur.bytes.length ∧
        decodeFields messageHeadSchema cur =
          .ok ([bitsValue cur.bytes cur.pos 1, bitsValue cur.bytes (cur.pos + 1) 11,
            bitsValue cur.bytes (cur.pos + 12) 12, bitsValue cur.bytes (cur.pos + 24) 1,
            bitsValue cur.bytes (cur.pos + 25) 7, bitsValue cur.bytes (cur.pos + 32) 10,
            bitsValue cur.bytes (cur.pos + 42) 10, bitsValue cur.bytes (cur.pos + 52) 2,
            bitsValue cur.bytes (cur.pos + 54) 8], ⟨cur.bytes, cur.pos + 62⟩)) := by
  rcases decodeFields_cases messageHeadSchema cur with ⟨h, hr⟩ | ⟨h, vs, hr, hl, hv⟩
  · exact Or.inl ⟨h, hr⟩
  · refine Or.inr ⟨by simpa [messageHeadSchema, schemaBits] using h, ?_⟩
    rw [hr]
    refine congrArg Except.ok (Prod.ext (List.ext_getElem? fun k => ?_) rfl)
    by_cases hk : k < 9
    · rw [hv k hk]
      revert hk
      revert k
      intro k hk
      match k, hk with
      | 0, _ | 1, _ | 2, _ | 3, _ | 4, _ | 5, _ | 6, _ | 7, _ | 8, _ => rfl
    · rw [List.getElem?_eq_none (by rw [hl]; exact Nat.le_of_not_lt hk),
        List.getElem?_eq_none (by exact Nat.le_of_not_lt hk)]

/-- All that decoding one message can answer (44_packet_schemas.md R210). -/
theorem decodeAncMessage_cases (cur : PrivateCursor) :
    (8 * cur.bytes.length < cur.pos + msgBits (bitsValue cur.bytes (cur.pos + 54) 8) ∧
        decodeAncMessage cur = .error .truncatedInput) ∨
      (cur.pos + msgBits (bitsValue cur.bytes (cur.pos + 54) 8) ≤ 8 * cur.bytes.length ∧
        decodeAncMessage cur = .ok (receivedAt cur.bytes cur.pos,
          ⟨cur.bytes, cur.pos + msgBits (bitsValue cur.bytes (cur.pos + 54) 8)⟩)) := by
  unfold decodeAncMessage
  generalize hd : bitsValue cur.bytes (cur.pos + 54) 8 = d
  rcases decodeMessageHead_cases cur with ⟨h, hr⟩ | ⟨h, hr⟩ <;> rw [hr]
  · exact Or.inl ⟨by unfold msgBits; omega, rfl⟩
  · simp only [List.getD_cons_succ, List.getD_cons_zero, hd]
    rcases unpackUserData_cases d ⟨cur.bytes, cur.pos + 62⟩ with ⟨_, h1, h2⟩ | ⟨h1, h2⟩ <;> simp only [h2]
    · exact Or.inl ⟨by simp only at h1; unfold msgBits; omega, trivial⟩
    · rcases decodeField_cases ⟨cur.bytes, cur.pos + 62 + 10 * d⟩ 10 with ⟨h3, h4⟩ | ⟨h3, h4⟩ <;> simp only [h4]
      · exact Or.inl ⟨by simp only at h3; unfold msgBits; omega, trivial⟩
      · rcases decodeField_cases ⟨cur.bytes, cur.pos + 62 + 10 * d + 10⟩ (wordAlignWidth d) with
          ⟨h5, h6⟩ | ⟨h5, h6⟩ <;> simp only [h6]
        · exact Or.inl ⟨by simp only at h5; unfold msgBits; omega, trivial⟩
        · refine Or.inr ⟨by simp only at h5; unfold msgBits; omega, congrArg Except.ok (Prod.ext ?_ ?_)⟩
          · simp only [receivedAt, messageAt, AncMessage.ofParts, hd]
            rfl
          · simp only [PrivateCursor.mk.injEq, true_and]
            unfold msgBits
            omega

/-- The position after `n` messages from stream position `a` on. -/
def messagesEnd (bytes : List Byte) : Nat → Nat → Nat
  | 0, a => a
  | n + 1, a => messagesEnd bytes n (a + msgBits (bitsValue bytes (a + 54) 8))

/-- The `n` received messages from stream position `a` on. -/
def receivedFrom (bytes : List Byte) : Nat → Nat → List DecodedMessage
  | 0, _ => []
  | n + 1, a => receivedAt bytes a :: receivedFrom bytes n (a + msgBits (bitsValue bytes (a + 54) 8))

theorem le_messagesEnd (bytes : List Byte) (n a : Nat) : a ≤ messagesEnd bytes n a := by
  induction n generalizing a with
  | zero => exact Nat.le_refl _
  | succ n ih => exact Nat.le_trans (Nat.le_add_right _ _) (ih _)

/-- The last of `n + 1` messages is the one after `n`. -/
theorem messagesEnd_succ (bytes : List Byte) (n a : Nat) :
    messagesEnd bytes (n + 1) a =
      messagesEnd bytes n a + msgBits (bitsValue bytes (messagesEnd bytes n a + 54) 8) := by
  induction n generalizing a with
  | zero => rfl
  | succ n ih => rw [messagesEnd, ih, messagesEnd]

theorem msgBits_eq (d : Nat) : msgBits d = 8 * msgBytes d := by
  unfold msgBytes msgBits wordAlignWidth
  omega

/-- Where the messages of a payload stand, in bits and in bytes (44_packet_schemas.md R209, R213). -/
theorem messagesEnd_eq_messageStart (bytes : List Byte) (n : Nat) :
    messagesEnd bytes n 32 = 8 * messageStart (bitsValue bytes) n := by
  induction n with
  | zero => rfl
  | succ n ih => rw [messagesEnd_succ, ih, messageStart, msgBits_eq, Nat.mul_add]

/-- All that decoding `n` messages can answer (44_packet_schemas.md R208, R209). -/
theorem decodeMessages_cases (n : Nat) (cur : PrivateCursor) :
    (0 < n ∧ 8 * cur.bytes.length < messagesEnd cur.bytes n cur.pos ∧
        decodeMessages n cur = .error .truncatedInput) ∨
      ((n = 0 ∨ messagesEnd cur.bytes n cur.pos ≤ 8 * cur.bytes.length) ∧
        decodeMessages n cur =
          .ok (receivedFrom cur.bytes n cur.pos, ⟨cur.bytes, messagesEnd cur.bytes n cur.pos⟩)) := by
  induction n generalizing cur with
  | zero => exact Or.inr ⟨Or.inl rfl, rfl⟩
  | succ n ih =>
    simp only [decodeMessages, messagesEnd, receivedFrom]
    have hle := le_messagesEnd cur.bytes n (cur.pos + msgBits (bitsValue cur.bytes (cur.pos + 54) 8))
    rcases decodeAncMessage_cases cur with ⟨h, hr⟩ | ⟨h, hr⟩ <;> rw [hr]
    · exact Or.inl ⟨by omega, by omega, rfl⟩
    · rcases ih ⟨cur.bytes, cur.pos + msgBits (bitsValue cur.bytes (cur.pos + 54) 8)⟩ with
        ⟨h0, h1, h2⟩ | ⟨h1, h2⟩ <;> simp only [h2]
      · exact Or.inl ⟨by omega, h1, trivial⟩
      · refine Or.inr ⟨Or.inr ?_, trivial⟩
        rcases h1 with h1 | h1
        · subst h1
          exact h
        · exact h1

/-- All that decoding a payload can answer (44_packet_schemas.md R208). -/
theorem decodeAncPacket_cases (bytes : List Byte) :
    ((bytes.length < 4 ∨ 8 * bytes.length < messagesEnd bytes (bitsValue bytes 0 8) 32) ∧
        decodeAncPacket bytes = .error .truncatedInput) ∨
      (4 ≤ bytes.length ∧ messagesEnd bytes (bitsValue bytes 0 8) 32 ≤ 8 * bytes.length ∧
        decodeAncPacket bytes =
          .ok (⟨bitsValue bytes 0 8, bitsValue bytes 8 2, bitsValue bytes 10 22,
            receivedFrom bytes (bitsValue bytes 0 8) 32⟩, messagesEnd bytes (bitsValue bytes 0 8) 32 / 8)) := by
  unfold decodeAncPacket
  have hh : (8 * bytes.length < 32 ∧ decodeFields ancHeaderSchema ⟨bytes, 0⟩ = .error .truncatedInput) ∨
      (32 ≤ 8 * bytes.length ∧ decodeFields ancHeaderSchema ⟨bytes, 0⟩ =
        .ok ([bitsValue bytes 0 8, bitsValue bytes 8 2, bitsValue bytes 10 22], ⟨bytes, 32⟩)) := by
    simp only [ancHeaderSchema, decodeFields]
    rcases decodeField_cases ⟨bytes, 0⟩ 8 with ⟨h, hr⟩ | ⟨h, hr⟩ <;> simp only [hr] <;> simp only at h
    · exact Or.inl ⟨by omega, trivial⟩
    rcases decodeField_cases ⟨bytes, 0 + 8⟩ 2 with ⟨h, hr⟩ | ⟨h, hr⟩ <;> simp only [hr] <;> simp only at h
    · exact Or.inl ⟨by omega, trivial⟩
    rcases decodeField_cases ⟨bytes, 0 + 8 + 2⟩ 22 with ⟨h, hr⟩ | ⟨h, hr⟩ <;> simp only [hr] <;> simp only at h
    · exact Or.inl ⟨by omega, trivial⟩
    exact Or.inr ⟨by omega, trivial⟩
  rcases hh with ⟨h, hr⟩ | ⟨h, hr⟩ <;> simp only [hr]
  · exact Or.inl ⟨Or.inl (by omega), trivial⟩
  · simp only [List.getD_cons_succ, List.getD_cons_zero]
    rcases decodeMessages_cases (bitsValue bytes 0 8) ⟨bytes, 32⟩ with ⟨h0, h1, h2⟩ | ⟨h1, h2⟩ <;>
      simp only [h2]
    · exact Or.inl ⟨Or.inr h1, trivial⟩
    · refine Or.inr ⟨by omega, ?_, trivial⟩
      rcases h1 with h1 | h1
      · rw [h1]
        exact h
      · exact h1

/-- All that decoding a payload can answer, in bytes: it fails exactly when the bytes end before the payload the
counts announce does. -/
theorem decodeAncPacket_bytes_cases (bytes : List Byte) :
    (¬ (4 ≤ bytes.length ∧ messageStart (bitsValue bytes) (bitsValue bytes 0 8) ≤ bytes.length) ∧
        decodeAncPacket bytes = .error .truncatedInput) ∨
      ((4 ≤ bytes.length ∧ messageStart (bitsValue bytes) (bitsValue bytes 0 8) ≤ bytes.length) ∧
        decodeAncPacket bytes =
          .ok (⟨bitsValue bytes 0 8, bitsValue bytes 8 2, bitsValue bytes 10 22,
            receivedFrom bytes (bitsValue bytes 0 8) 32⟩,
            messageStart (bitsValue bytes) (bitsValue bytes 0 8))) := by
  have he := messagesEnd_eq_messageStart bytes (bitsValue bytes 0 8)
  rcases decodeAncPacket_cases bytes with ⟨h, hr⟩ | ⟨h4, h, hr⟩
  · exact Or.inl ⟨by omega, hr⟩
  · rw [he, Nat.mul_div_cancel_left _ (by decide)] at hr
    exact Or.inr ⟨⟨h4, by omega⟩, hr⟩

/-- All that decoding an RTP header can answer (44_packet_schemas.md R201). -/
theorem decodeRtpHeader_cases (bytes : List Byte) :
    (bytes.length < 16 ∧ decodeRtpHeader bytes = .error .truncatedInput) ∨
      (16 ≤ bytes.length ∧
        decodeRtpHeader bytes =
          .ok (⟨bitsValue bytes 0 2, bitsValue bytes 2 1, bitsValue bytes 3 1, bitsValue bytes 4 4,
            bitsValue bytes 8 1, bitsValue bytes 9 7, bitsValue bytes 16 16, bitsValue bytes 32 32,
            bitsValue bytes 64 32, bitsValue bytes 96 16, bitsValue bytes 112 16⟩, 16)) := by
  unfold decodeRtpHeader
  rcases decodeFields_cases rtpSchema ⟨bytes, 0⟩ with ⟨h, hr⟩ | ⟨h, vs, hr, hl, hv⟩ <;> simp only [hr]
  · exact Or.inl ⟨by simp [schemaBits, rtpSchema] at h; omega, trivial⟩
  · refine Or.inr ⟨by simp [schemaBits, rtpSchema] at h; omega, congrArg Except.ok (Prod.ext ?_ rfl)⟩
    have get : ∀ k, ∀ hk : k < 11, vs.getD k 0 =
        bitsValue bytes (0 + schemaBits (rtpSchema.take k)) (rtpSchema[k]'hk).width := fun k hk => by
      rw [List.getD_eq_getElem?_getD, hv k hk]
      rfl
    simp only [RtpHeader.ofValues, get 0 (by decide), get 1 (by decide), get 2 (by decide),
      get 3 (by decide), get 4 (by decide), get 5 (by decide), get 6 (by decide), get 7 (by decide),
      get 8 (by decide), get 9 (by decide), get 10 (by decide)]
    rfl

end Sys2Proof.Machine
end

