-- ==== Sys2Proof/Laws/Encoding.lean ====
section
/-! SUPPORT. What the record encoders of 44_packet_schemas.md answer: the bits they append, in order, and the
one condition under which they fail. -/

namespace Sys2Proof.Machine

/-- The `w` bits of `v`, most significant first. -/
def fieldBits (v w : Nat) : List Bool := (List.range w).map (fun i => v.testBit (w - 1 - i))

@[simp] theorem length_fieldBits (v w : Nat) : (fieldBits v w).length = w := by simp [fieldBits]

theorem getD_fieldBits (v w i : Nat) (h : i < w) : (fieldBits v w).getD i false = v.testBit (w - 1 - i) := by
  simp [fieldBits, h]

/-- `cur'` is `cur` after the bits `bits` were written at its position: nothing else changed, and the buffer grew
by just the bytes those bits need. -/
def PrivateCursor.Wrote (cur cur' : PrivateCursor) (bits : List Bool) : Prop :=
  cur'.pos = cur.pos + bits.length ∧
  cur'.bytes.length = (if bits.length = 0 then cur.bytes.length else grownLength cur.bytes.length cur.pos bits.length) ∧
  ∀ q, bitAt cur'.bytes q =
    if cur.pos ≤ q ∧ q < cur.pos + bits.length then bits.getD (q - cur.pos) false else bitAt cur.bytes q

theorem PrivateCursor.Wrote.nil (cur : PrivateCursor) : cur.Wrote cur [] :=
  ⟨rfl, rfl, fun q => (if_neg (by simp only [List.length_nil]; omega)).symm⟩

theorem PrivateCursor.Wrote.append {a b c : PrivateCursor} {x y : List Bool} (h : a.Wrote b x) (g : b.Wrote c y) :
    a.Wrote c (x ++ y) := by
  obtain ⟨h1, h2, h3⟩ := h
  obtain ⟨g1, g2, g3⟩ := g
  refine ⟨by rw [g1, h1, List.length_append]; omega, ?_, fun q => ?_⟩
  · rw [g2, h2, h1, List.length_append]
    unfold grownLength
    split_ifs <;> omega
  · rw [g3, h3, h1, List.length_append]
    by_cases hy : a.pos + x.length ≤ q ∧ q < a.pos + x.length + y.length
    · rw [if_pos hy, if_pos (by omega), List.getD_append_right _ _ _ _ (by omega)]
      congr 1
      omega
    · rw [if_neg hy]
      by_cases hx : a.pos ≤ q ∧ q < a.pos + x.length
      · rw [if_pos hx, if_pos (by omega), List.getD_append _ _ _ _ (by omega)]
      · rw [if_neg hx, if_neg (by omega)]

/-- All that encodeField can answer, as bits written (41_field_codec.md R133). -/
theorem encodeField_wrote (cur : PrivateCursor) (v w : Nat) (hw : 0 < w) :
    (2 ^ w ≤ v ∧ encodeField cur v w = .error .fieldOverflow) ∨
      (v < 2 ^ w ∧ ∃ cur', encodeField cur v w = .ok cur' ∧ cur.Wrote cur' (fieldBits v w)) := by
  rcases encodeField_cases cur v w with h | ⟨h, B, hr, hl, hb⟩
  · exact Or.inl h
  · refine Or.inr ⟨h, _, hr, by simp, ?_, fun q => ?_⟩
    · rw [length_fieldBits, if_neg (by omega)]
      exact hl
    · rw [hb, length_fieldBits]
      by_cases hq : cur.pos ≤ q ∧ q < cur.pos + w
      · rw [if_pos hq, if_pos hq, getD_fieldBits _ _ _ (by omega)]
      · rw [if_neg hq, if_neg hq]

/-- The bits of a schema's values. -/
def schemaWire : List FieldDesc → List Nat → List Bool
  | d :: ds, v :: vs => fieldBits v d.width ++ schemaWire ds vs
  | _, _ => []

/-- All that writing the fields of a schema can answer (41_field_codec.md R135). -/
theorem encodeFields_wrote (ds : List FieldDesc) (vs : List Nat) (cur : PrivateCursor) (hd : ∀ d ∈ ds, 0 < d.width) :
    ((∃ x ∈ (ds.map FieldDesc.width).zip vs, 2 ^ x.1 ≤ x.2) ∧ encodeFields ds vs cur = .error .fieldOverflow) ∨
      ((∀ x ∈ (ds.map FieldDesc.width).zip vs, x.2 < 2 ^ x.1) ∧
        ∃ cur', encodeFields ds vs cur = .ok cur' ∧ cur.Wrote cur' (schemaWire ds vs)) := by
  induction ds generalizing vs cur with
  | nil => exact Or.inr ⟨by simp, cur, rfl, .nil cur⟩
  | cons d ds ih =>
    cases vs with
    | nil => exact Or.inr ⟨by simp, cur, rfl, .nil cur⟩
    | cons v vs =>
      simp only [encodeFields, List.map_cons, List.zip_cons_cons, schemaWire, List.mem_cons]
      rcases encodeField_wrote cur v d.width (hd d (by simp)) with ⟨h, hr⟩ | ⟨h, cur1, hr, hw⟩ <;> simp only [hr]
      · exact Or.inl ⟨⟨_, Or.inl rfl, h⟩, trivial⟩
      · rcases ih vs cur1 (fun e he => hd e (by simp [he])) with ⟨⟨x, hx, h1⟩, h2⟩ | ⟨h1, cur2, h2, hw2⟩ <;>
          simp only [h2]
        · exact Or.inl ⟨⟨x, Or.inr hx, h1⟩, trivial⟩
        · refine Or.inr ⟨?_, cur2, rfl, hw.append hw2⟩
          rintro x (rfl | hx)
          · exact h
          · exact h1 x hx

/-- The bits of the user data. -/
def userDataWire (ud : List Byte) : List Bool := ud.flatMap (fun b => fieldBits (udw b) 10)

@[simp] theorem length_userDataWire (ud : List Byte) : (userDataWire ud).length = 10 * ud.length := by
  induction ud with
  | nil => rfl
  | cons b bs ih => simp only [userDataWire, List.flatMap_cons, List.length_append, length_fieldBits,
      List.length_cons] at ih ⊢; omega

/-- All that packing user data can answer: it never fails (43_subword_array.md R182). -/
theorem packUserData_wrote (ud : List Byte) (cur : PrivateCursor) :
    ∃ cur', packUserData ud cur = .ok cur' ∧ cur.Wrote cur' (userDataWire ud) := by
  induction ud generalizing cur with
  | nil => exact ⟨cur, rfl, .nil cur⟩
  | cons b bs ih =>
    rcases encodeField_wrote cur (udw b) 10 (by decide) with ⟨h, _⟩ | ⟨_, cur1, hr, hw⟩
    · exact absurd h (by have := udw_lt b; omega)
    · obtain ⟨cur2, h2, hw2⟩ := ih cur1
      exact ⟨cur2, by simp only [packUserData, hr, h2], hw.append hw2⟩

theorem checksumSum_lt (did sdid n : Nat) (ud : List Byte) : checksumSum did sdid n ud < 512 :=
  Nat.mod_lt _ (by decide)

theorem checksumWord_lt (did sdid n : Nat) (ud : List Byte) : checksumWord did sdid n ud < 1024 := by
  have := checksumSum_lt did sdid n ud
  unfold checksumWord
  omega

theorem parityPair_lt (x : Nat) : parityPair x < 4 := by
  have : ep x < 2 := Nat.mod_lt _ (by decide)
  unfold parityPair
  omega

theorem wordAlignWidth_bounds (d : Nat) : 1 ≤ wordAlignWidth d ∧ wordAlignWidth d ≤ 32 := by
  unfold wordAlignWidth
  omega

/-- The bits of one message (44_packet_schemas.md R212). -/
def AncMessage.wire (m : AncMessage) : List Bool :=
  schemaWire messageHeadSchema m.headValues ++ userDataWire m.userData ++
    fieldBits (checksumWord m.did m.sdid m.userData.length m.userData) 10 ++
    fieldBits 0 (wordAlignWidth m.userData.length)

@[simp] theorem AncMessage.length_wire (m : AncMessage) : m.wire.length = msgBits m.userData.length := by
  simp only [AncMessage.wire, List.length_append, length_fieldBits, length_userDataWire, messageHeadSchema,
    AncMessage.headValues, schemaWire, List.length_nil, msgBits]
  omega

/-- The widths of a message's head are what `plainFits` and a count of at most 255 ask. -/
theorem AncMessage.headFits_iff (m : AncMessage) (h : m.userData.length ≤ 255) :
    (∀ x ∈ (messageHeadSchema.map FieldDesc.width).zip m.headValues, x.2 < 2 ^ x.1) ↔ m.plainFits := by
  have := parityPair_lt m.userData.length
  simp only [messageHeadSchema, AncMessage.headValues, List.map_cons, List.map_nil, List.zip_cons_cons,
    List.zip_nil_left, List.forall_mem_cons, AncMessage.plainFits]
  constructor
  · rintro ⟨h1, h2, h3, h4, h5, h6, h7, -⟩
    exact ⟨h1, h2, h3, h4, h5, h6, h7⟩
  · rintro ⟨h1, h2, h3, h4, h5, h6, h7⟩
    exact ⟨h1, h2, h3, h4, h5, h6, h7, by simpa using this, Nat.lt_succ_of_le h, by simp⟩

/-- All that encoding one message can answer (44_packet_schemas.md R212). -/
theorem encodeAncMessage_wrote (m : AncMessage) (cur : PrivateCursor) :
    (¬ m.encodable ∧ encodeAncMessage m cur = .error .fieldOverflow) ∨
      (m.encodable ∧ ∃ cur', encodeAncMessage m cur = .ok cur' ∧ cur.Wrote cur' m.wire) := by
  unfold encodeAncMessage AncMessage.encodable
  by_cases hl : m.userData.length > 255
  · exact Or.inl ⟨by omega, if_pos hl⟩
  · rw [if_neg hl]
    have hf := m.headFits_iff (by omega)
    rcases encodeFields_wrote messageHeadSchema m.headValues cur (by decide) with ⟨⟨x, hx, h⟩, hr⟩ | ⟨h, c1, hr, w1⟩ <;>
      simp only [hr]
    · refine Or.inl ⟨fun hp => ?_, trivial⟩
      exact absurd (hf.mpr hp.1 x hx) (by omega)
    · obtain ⟨c2, h2, w2⟩ := packUserData_wrote m.userData c1
      simp only [h2]
      rcases encodeField_wrote c2 (checksumWord m.did m.sdid m.userData.length m.userData) 10 (by decide) with
        ⟨hc, _⟩ | ⟨_, c3, h3, w3⟩
      · exact absurd hc (by have := checksumWord_lt m.did m.sdid m.userData.length m.userData; omega)
      · simp only [h3]
        rcases encodeField_wrote c3 0 (wordAlignWidth m.userData.length) (wordAlignWidth_bounds _).1 with
          ⟨hz, _⟩ | ⟨_, c4, h4, w4⟩
        · exact absurd hz (by have := Nat.two_pow_pos (wordAlignWidth m.userData.length); omega)
        · exact Or.inr ⟨⟨hf.mp h, by omega⟩, c4, h4, ((w1.append w2).append w3).append w4⟩

/-- The bits of a list of messages. -/
def messagesWire (ms : List AncMessage) : List Bool := ms.flatMap AncMessage.wire

/-- All that encoding messages can answer (44_packet_schemas.md R212). -/
theorem encodeMessages_wrote (ms : List AncMessage) (cur : PrivateCursor) :
    ((∃ m ∈ ms, ¬ m.encodable) ∧ encodeMessages ms cur = .error .fieldOverflow) ∨
      ((∀ m ∈ ms, m.encodable) ∧
        ∃ cur', encodeMessages ms cur = .ok cur' ∧ cur.Wrote cur' (messagesWire ms)) := by
  induction ms generalizing cur with
  | nil => exact Or.inr ⟨by simp, cur, rfl, .nil cur⟩
  | cons m ms ih =>
    simp only [encodeMessages, List.mem_cons]
    rcases encodeAncMessage_wrote m cur with ⟨h, hr⟩ | ⟨h, c1, hr, w1⟩ <;> simp only [hr]
    · exact Or.inl ⟨⟨m, Or.inl rfl, h⟩, trivial⟩
    · rcases ih c1 with ⟨⟨x, hx, h1⟩, h2⟩ | ⟨h1, c2, h2, w2⟩ <;> simp only [h2]
      · exact Or.inl ⟨⟨x, Or.inr hx, h1⟩, trivial⟩
      · refine Or.inr ⟨?_, c2, rfl, w1.append w2⟩
        rintro x (rfl | hx)
        · exact h
        · exact h1 x hx

/-- The bits of a packet (44_packet_schemas.md R212). -/
def AncPacket.wire (p : AncPacket) : List Bool :=
  schemaWire ancHeaderSchema [p.messages.length, p.field, p.reserved] ++ messagesWire p.messages

theorem length_messagesWire (ms : List AncMessage) :
    (messagesWire ms).length = 8 * (ms.map (fun m => msgBytes m.userData.length)).sum := by
  induction ms with
  | nil => rfl
  | cons m ms ih =>
    simp only [messagesWire, List.flatMap_cons, List.length_append, AncMessage.length_wire, List.map_cons,
      List.sum_cons] at ih ⊢
    rw [ih]
    have : 8 ∣ msgBits m.userData.length := by unfold msgBits wordAlignWidth; omega
    unfold msgBytes
    omega

@[simp] theorem AncPacket.length_wire (p : AncPacket) : p.wire.length = 8 * p.byteLength := by
  simp only [AncPacket.wire, List.length_append, length_messagesWire, AncPacket.byteLength, ancHeaderSchema,
    schemaWire, length_fieldBits, List.length_nil]
  omega

/-- All that encoding a payload can answer (44_packet_schemas.md R212, R213). -/
theorem encodeAncPacket_cases (p : AncPacket) :
    (¬ p.encodable ∧ encodeAncPacket p = .error .fieldOverflow) ∨
      (p.encodable ∧ ∃ bytes, encodeAncPacket p = .ok bytes ∧ bytes.length = p.byteLength ∧
        ∀ q < 8 * p.byteLength, bitAt bytes q = p.wire.getD q false) := by
  unfold encodeAncPacket AncPacket.encodable
  by_cases hl : p.messages.length > 255
  · exact Or.inl ⟨by omega, if_pos hl⟩
  · rw [if_neg hl]
    have hf : (∀ x ∈ (ancHeaderSchema.map FieldDesc.width).zip [p.messages.length, p.field, p.reserved],
        x.2 < 2 ^ x.1) ↔ p.field < 4 ∧ p.reserved < 2 ^ 22 := by
      simp [ancHeaderSchema]
      omega
    rcases encodeFields_wrote ancHeaderSchema [p.messages.length, p.field, p.reserved] ⟨[], 0⟩ (by decide) with
      ⟨⟨x, hx, h⟩, hr⟩ | ⟨h, c1, hr, w1⟩ <;> simp only [hr]
    · exact Or.inl ⟨fun hp => absurd (hf.mpr ⟨hp.2.1, hp.2.2.1⟩ x hx) (by omega), trivial⟩
    · rcases encodeMessages_wrote p.messages c1 with ⟨⟨m, hm, h1⟩, h2⟩ | ⟨h1, c2, h2, w2⟩ <;> simp only [h2]
      · exact Or.inl ⟨fun hp => h1 (hp.2.2.2 m hm), trivial⟩
      · refine Or.inr ⟨⟨by omega, (hf.mp h).1, (hf.mp h).2, h1⟩, c2.bytes, rfl, ?_, fun q hq => ?_⟩
        · have := (w1.append w2).2.1
          rw [show schemaWire ancHeaderSchema [p.messages.length, p.field, p.reserved] ++ messagesWire p.messages =
            p.wire from rfl, p.length_wire] at this
          rw [this]
          have : 4 ≤ p.byteLength := Nat.le_add_right _ _
          rw [if_neg (by omega)]
          simp only [grownLength, List.length_nil]
          omega
        · have := (w1.append w2).2.2 q
          rw [show schemaWire ancHeaderSchema [p.messages.length, p.field, p.reserved] ++ messagesWire p.messages =
            p.wire from rfl, p.length_wire] at this
          rw [this]
          simp only [Nat.zero_le, true_and, Nat.zero_add, Nat.sub_zero]
          rw [if_pos hq]

/-- All that encoding an RTP header can answer (44_packet_schemas.md R203). -/
theorem encodeRtpHeader_cases (h : RtpHeader) :
    (¬ h.fits ∧ encodeRtpHeader h = .error .fieldOverflow) ∨
      (h.fits ∧ ∃ bytes, encodeRtpHeader h = .ok bytes ∧ bytes.length = 16 ∧
        ∀ q < 128, bitAt bytes q = (schemaWire rtpSchema h.values).getD q false) := by
  unfold encodeRtpHeader RtpHeader.fits
  rcases encodeFields_wrote rtpSchema h.values ⟨[], 0⟩ (by decide) with ⟨⟨x, hx, h1⟩, hr⟩ | ⟨h1, c, hr, -, hl, hb⟩ <;>
    simp only [hr]
  · exact Or.inl ⟨fun hp => absurd (hp x hx) (by omega), trivial⟩
  · have hw : (schemaWire rtpSchema h.values).length = 128 := by
      simp [rtpSchema, RtpHeader.values, schemaWire]
    rw [hw] at hl hb
    refine Or.inr ⟨h1, c.bytes, rfl, by simpa [grownLength] using hl, fun q hq => ?_⟩
    rw [hb q, if_pos (by simp only; omega)]
    rfl

end Sys2Proof.Machine
end

