-- ==== Sys2Proof/Laws/Memory.lean ====
section
/-! SUPPORT. What the operations over the cells of a byte space do: a read after a write, and the
canonical form, which every operation keeps. -/

namespace Sys2Proof.Machine

@[simp] theorem Memory.read?_nil (a : Nat) : Memory.read? [] a = none := rfl

/-- A read after a write of one byte. -/
theorem Memory.read?_write (m : Memory) (a x : Nat) (b : Byte) :
    (Memory.write m a b).read? x = if x = a then some b else m.read? x := by
  induction m with
  | nil => simp [Memory.write, Memory.read?]
  | cons c m ih =>
    obtain ⟨y, d⟩ := c
    simp only [Memory.write]
    split
    · simp [Memory.read?]
    · split
      · subst_vars
        simp only [Memory.read?]
        split <;> rfl
      · simp only [Memory.read?, ih]
        split
        · rw [if_neg (by omega)]
        · rfl

/-- A read after a write of consecutive bytes. -/
theorem Memory.read?_writeBytes (bs : List Byte) (m : Memory) (a x : Nat) :
    (Memory.writeBytes m a bs).read? x =
      if a ≤ x ∧ x < a + bs.length then bs[x - a]? else m.read? x := by
  induction bs generalizing m a with
  | nil =>
    rw [Memory.writeBytes, if_neg (by simp)]
  | cons b bs ih =>
    rw [Memory.writeBytes, ih, Memory.read?_write]
    by_cases h : x = a
    · subst h
      simp
    · by_cases h1 : a + 1 ≤ x ∧ x < a + 1 + bs.length
      · rw [if_pos h1, if_pos (by simp only [List.length_cons]; omega),
          show x - a = (x - (a + 1)) + 1 by omega, List.getElem?_cons_succ]
      · rw [if_neg h1, if_neg h, if_neg (by simp only [List.length_cons]; omega)]

/-- The canonical form of a nonempty memory, as its head and its tail. -/
theorem Memory.wf_cons (c : Host.Cell) (m : Memory) :
    Memory.wf (c :: m) = true ↔ (∀ d ∈ m.head?, c.1 < d.1) ∧ m.wf = true := by
  cases m with
  | nil => simp [Memory.wf]
  | cons d m => simp [Memory.wf]

/-- Where the head of a memory after a write comes from. -/
theorem Memory.head?_write (m : Memory) (a : Nat) (b : Byte) :
    ∀ d ∈ (Memory.write m a b).head?, d.1 = a ∨ d ∈ m.head? := by
  cases m with
  | nil => simp [Memory.write]
  | cons c m =>
    obtain ⟨y, e⟩ := c
    simp only [Memory.write]
    split
    · simp
    · split
      · simp
      · simp

/-- A write of one byte keeps the canonical form. -/
theorem Memory.wf_write (m : Memory) (a : Nat) (b : Byte) (h : m.wf = true) :
    (Memory.write m a b).wf = true := by
  induction m with
  | nil => rfl
  | cons c m ih =>
    obtain ⟨y, d⟩ := c
    obtain ⟨hy, hm⟩ := (Memory.wf_cons _ _).mp h
    simp only [Memory.write]
    split
    · exact (Memory.wf_cons _ _).mpr ⟨by simp_all, h⟩
    · split
      · subst_vars
        exact (Memory.wf_cons _ _).mpr ⟨hy, hm⟩
      · refine (Memory.wf_cons _ _).mpr ⟨fun e he => ?_, ih hm⟩
        rcases Memory.head?_write m a b e he with h1 | h1
        · show y < e.1
          omega
        · exact hy e h1

/-- A write of consecutive bytes keeps the canonical form. -/
theorem Memory.wf_writeBytes (bs : List Byte) (m : Memory) (a : Nat) (h : m.wf = true) :
    (Memory.writeBytes m a bs).wf = true := by
  induction bs generalizing m a with
  | nil => exact h
  | cons b bs ih => exact ih _ _ (Memory.wf_write m a b h)

/-- A cell after a write of one byte is the byte written or was there before. -/
theorem Memory.mem_write (m : Memory) (a : Nat) (b : Byte) :
    ∀ c ∈ Memory.write m a b, c = (a, b) ∨ c ∈ m := by
  induction m with
  | nil => simp [Memory.write]
  | cons d m ih =>
    obtain ⟨y, e⟩ := d
    intro c hc
    simp only [Memory.write] at hc
    split at hc
    · simpa using hc
    · split at hc
      · rcases List.mem_cons.mp hc with h | h
        · exact Or.inl h
        · exact Or.inr (List.mem_cons_of_mem _ h)
      · rcases List.mem_cons.mp hc with h | h
        · exact Or.inr (by simp [h])
        · rcases ih c h with h | h
          · exact Or.inl h
          · exact Or.inr (List.mem_cons_of_mem _ h)

/-- The index of a cell after a write of consecutive bytes. -/
theorem Memory.mem_writeBytes (bs : List Byte) (m : Memory) (a : Nat) :
    ∀ c ∈ Memory.writeBytes m a bs, (a ≤ c.1 ∧ c.1 < a + bs.length) ∨ c ∈ m := by
  induction bs generalizing m a with
  | nil => exact fun c hc => Or.inr hc
  | cons b bs ih =>
    intro c hc
    rcases ih _ _ c hc with h | h
    · left
      simp only [List.length_cons]
      omega
    · rcases Memory.mem_write m a b c h with h | h
      · left
        simp [h]
      · exact Or.inr h

end Sys2Proof.Machine
end

