-- ==== Sys2Proof/Laws/State.lean ====
section
/-! SUPPORT. One lemma per field per update of the state. -/

namespace Sys2Proof.Machine

@[simp] theorem State.raise_arg (s : State) (e : CmdError) : (s.raise e).arg = s.arg := rfl
@[simp] theorem State.raise_result (s : State) (e : CmdError) : (s.raise e).result = s.result := rfl
@[simp] theorem State.raise_status (s : State) (e : CmdError) :
    (s.raise e).status = statusWord (errCode e) .clear := rfl
@[simp] theorem State.raise_inlen (s : State) (e : CmdError) : (s.raise e).inlen = s.inlen := rfl
@[simp] theorem State.raise_outlen (s : State) (e : CmdError) : (s.raise e).outlen = s.outlen := rfl
@[simp] theorem State.raise_mode (s : State) (e : CmdError) : (s.raise e).mode = s.mode := rfl
@[simp] theorem State.raise_pos (s : State) (e : CmdError) : (s.raise e).pos = s.pos := rfl
@[simp] theorem State.raise_inbuf (s : State) (e : CmdError) : (s.raise e).inbuf = s.inbuf := rfl
@[simp] theorem State.raise_outbuf (s : State) (e : CmdError) : (s.raise e).outbuf = s.outbuf := rfl
@[simp] theorem State.raise_recInRtp (s : State) (e : CmdError) : (s.raise e).recInRtp = s.recInRtp := rfl
@[simp] theorem State.raise_recInAnc (s : State) (e : CmdError) : (s.raise e).recInAnc = s.recInAnc := rfl
@[simp] theorem State.raise_recOutRtp (s : State) (e : CmdError) : (s.raise e).recOutRtp = s.recOutRtp := rfl
@[simp] theorem State.raise_recOutAnc (s : State) (e : CmdError) : (s.raise e).recOutAnc = s.recOutAnc := rfl
@[simp] theorem State.raise_pending (s : State) (e : CmdError) : (s.raise e).pending = s.pending := rfl
@[simp] theorem State.raise_readData (s : State) (e : CmdError) : (s.raise e).readData = s.readData := rfl
@[simp] theorem State.raise_resets (s : State) (e : CmdError) : (s.raise e).resets = s.resets := rfl
@[simp] theorem State.raise_outDraws (s : State) (e : CmdError) : (s.raise e).outDraws = s.outDraws := rfl

@[simp] theorem State.succeed_arg (s : State) (a : Advisories) : (s.succeed a).arg = s.arg := rfl
@[simp] theorem State.succeed_result (s : State) (a : Advisories) : (s.succeed a).result = s.result := rfl
@[simp] theorem State.succeed_status (s : State) (a : Advisories) :
    (s.succeed a).status = statusWord 0 a := rfl
@[simp] theorem State.succeed_inlen (s : State) (a : Advisories) : (s.succeed a).inlen = s.inlen := rfl
@[simp] theorem State.succeed_outlen (s : State) (a : Advisories) : (s.succeed a).outlen = s.outlen := rfl
@[simp] theorem State.succeed_mode (s : State) (a : Advisories) : (s.succeed a).mode = s.mode := rfl
@[simp] theorem State.succeed_pos (s : State) (a : Advisories) : (s.succeed a).pos = s.pos := rfl
@[simp] theorem State.succeed_inbuf (s : State) (a : Advisories) : (s.succeed a).inbuf = s.inbuf := rfl
@[simp] theorem State.succeed_outbuf (s : State) (a : Advisories) : (s.succeed a).outbuf = s.outbuf := rfl
@[simp] theorem State.succeed_recInRtp (s : State) (a : Advisories) :
    (s.succeed a).recInRtp = s.recInRtp := rfl
@[simp] theorem State.succeed_recInAnc (s : State) (a : Advisories) :
    (s.succeed a).recInAnc = s.recInAnc := rfl
@[simp] theorem State.succeed_recOutRtp (s : State) (a : Advisories) :
    (s.succeed a).recOutRtp = s.recOutRtp := rfl
@[simp] theorem State.succeed_recOutAnc (s : State) (a : Advisories) :
    (s.succeed a).recOutAnc = s.recOutAnc := rfl
@[simp] theorem State.succeed_pending (s : State) (a : Advisories) : (s.succeed a).pending = s.pending := rfl
@[simp] theorem State.succeed_readData (s : State) (a : Advisories) :
    (s.succeed a).readData = s.readData := rfl
@[simp] theorem State.succeed_resets (s : State) (a : Advisories) : (s.succeed a).resets = s.resets := rfl
@[simp] theorem State.succeed_outDraws (s : State) (a : Advisories) :
    (s.succeed a).outDraws = s.outDraws := rfl

@[simp] theorem State.putOutput_arg (s : State) (bs : List Byte) : (s.putOutput bs).arg = s.arg := rfl
@[simp] theorem State.putOutput_result (s : State) (bs : List Byte) :
    (s.putOutput bs).result = s.result := rfl
@[simp] theorem State.putOutput_status (s : State) (bs : List Byte) :
    (s.putOutput bs).status = s.status := rfl
@[simp] theorem State.putOutput_inlen (s : State) (bs : List Byte) : (s.putOutput bs).inlen = s.inlen := rfl
@[simp] theorem State.putOutput_outlen (s : State) (bs : List Byte) :
    (s.putOutput bs).outlen = bs.length := rfl
@[simp] theorem State.putOutput_mode (s : State) (bs : List Byte) : (s.putOutput bs).mode = s.mode := rfl
@[simp] theorem State.putOutput_pos (s : State) (bs : List Byte) : (s.putOutput bs).pos = s.pos := rfl
@[simp] theorem State.putOutput_inbuf (s : State) (bs : List Byte) : (s.putOutput bs).inbuf = s.inbuf := rfl
@[simp] theorem State.putOutput_outbuf (s : State) (bs : List Byte) :
    (s.putOutput bs).outbuf = s.outbuf.writeBytes 0 bs := rfl
@[simp] theorem State.putOutput_recInRtp (s : State) (bs : List Byte) :
    (s.putOutput bs).recInRtp = s.recInRtp := rfl
@[simp] theorem State.putOutput_recInAnc (s : State) (bs : List Byte) :
    (s.putOutput bs).recInAnc = s.recInAnc := rfl
@[simp] theorem State.putOutput_recOutRtp (s : State) (bs : List Byte) :
    (s.putOutput bs).recOutRtp = s.recOutRtp := rfl
@[simp] theorem State.putOutput_recOutAnc (s : State) (bs : List Byte) :
    (s.putOutput bs).recOutAnc = s.recOutAnc := rfl
@[simp] theorem State.putOutput_pending (s : State) (bs : List Byte) :
    (s.putOutput bs).pending = s.pending := rfl
@[simp] theorem State.putOutput_readData (s : State) (bs : List Byte) :
    (s.putOutput bs).readData = s.readData := rfl
@[simp] theorem State.putOutput_resets (s : State) (bs : List Byte) :
    (s.putOutput bs).resets = s.resets := rfl
@[simp] theorem State.putOutput_outDraws (s : State) (bs : List Byte) :
    (s.putOutput bs).outDraws = s.outDraws + 1 := rfl

@[simp] theorem State.commitPacket_arg (s : State) (k : Nat) (bs : List Byte) :
    (s.commitPacket k bs).arg = s.arg := rfl
@[simp] theorem State.commitPacket_result (s : State) (k : Nat) (bs : List Byte) :
    (s.commitPacket k bs).result = BitVec.ofNat 32 bs.length := rfl
@[simp] theorem State.commitPacket_status (s : State) (k : Nat) (bs : List Byte) :
    (s.commitPacket k bs).status = s.status := rfl
@[simp] theorem State.commitPacket_inlen (s : State) (k : Nat) (bs : List Byte) :
    (s.commitPacket k bs).inlen = s.inlen := rfl
@[simp] theorem State.commitPacket_outlen (s : State) (k : Nat) (bs : List Byte) :
    (s.commitPacket k bs).outlen = k + bs.length := rfl
@[simp] theorem State.commitPacket_mode (s : State) (k : Nat) (bs : List Byte) :
    (s.commitPacket k bs).mode = if s.mode = .write then .idle else s.mode := rfl
@[simp] theorem State.commitPacket_pos (s : State) (k : Nat) (bs : List Byte) :
    (s.commitPacket k bs).pos = if s.mode = .write then 0 else s.pos := rfl
@[simp] theorem State.commitPacket_inbuf (s : State) (k : Nat) (bs : List Byte) :
    (s.commitPacket k bs).inbuf = s.inbuf := rfl
@[simp] theorem State.commitPacket_outbuf (s : State) (k : Nat) (bs : List Byte) :
    (s.commitPacket k bs).outbuf = s.outbuf.writeBytes k bs := rfl
@[simp] theorem State.commitPacket_recInRtp (s : State) (k : Nat) (bs : List Byte) :
    (s.commitPacket k bs).recInRtp = s.recInRtp := rfl
@[simp] theorem State.commitPacket_recInAnc (s : State) (k : Nat) (bs : List Byte) :
    (s.commitPacket k bs).recInAnc = s.recInAnc := rfl
@[simp] theorem State.commitPacket_recOutRtp (s : State) (k : Nat) (bs : List Byte) :
    (s.commitPacket k bs).recOutRtp = s.recOutRtp := rfl
@[simp] theorem State.commitPacket_recOutAnc (s : State) (k : Nat) (bs : List Byte) :
    (s.commitPacket k bs).recOutAnc = s.recOutAnc := rfl
@[simp] theorem State.commitPacket_pending (s : State) (k : Nat) (bs : List Byte) :
    (s.commitPacket k bs).pending = s.pending := rfl
@[simp] theorem State.commitPacket_readData (s : State) (k : Nat) (bs : List Byte) :
    (s.commitPacket k bs).readData = s.readData := rfl
@[simp] theorem State.commitPacket_resets (s : State) (k : Nat) (bs : List Byte) :
    (s.commitPacket k bs).resets = s.resets := rfl
@[simp] theorem State.commitPacket_outDraws (s : State) (k : Nat) (bs : List Byte) :
    (s.commitPacket k bs).outDraws = s.outDraws + 1 := rfl

@[simp] theorem State.writeInlen_arg (s : State) (v : Nat) : (s.writeInlen v).arg = s.arg := rfl
@[simp] theorem State.writeInlen_result (s : State) (v : Nat) : (s.writeInlen v).result = s.result := rfl
@[simp] theorem State.writeInlen_status (s : State) (v : Nat) : (s.writeInlen v).status = s.status := rfl
@[simp] theorem State.writeInlen_inlen (s : State) (v : Nat) :
    (s.writeInlen v).inlen = if fitsIn v then v else Config.inCap := rfl
@[simp] theorem State.writeInlen_outlen (s : State) (v : Nat) : (s.writeInlen v).outlen = s.outlen := rfl
@[simp] theorem State.writeInlen_mode (s : State) (v : Nat) :
    (s.writeInlen v).mode = if s.mode = .read then .idle else s.mode := rfl
@[simp] theorem State.writeInlen_pos (s : State) (v : Nat) :
    (s.writeInlen v).pos = if s.mode = .read then 0 else s.pos := rfl
@[simp] theorem State.writeInlen_inbuf (s : State) (v : Nat) : (s.writeInlen v).inbuf = s.inbuf := rfl
@[simp] theorem State.writeInlen_outbuf (s : State) (v : Nat) : (s.writeInlen v).outbuf = s.outbuf := rfl
@[simp] theorem State.writeInlen_recInRtp (s : State) (v : Nat) :
    (s.writeInlen v).recInRtp = s.recInRtp := rfl
@[simp] theorem State.writeInlen_recInAnc (s : State) (v : Nat) :
    (s.writeInlen v).recInAnc = s.recInAnc := rfl
@[simp] theorem State.writeInlen_recOutRtp (s : State) (v : Nat) :
    (s.writeInlen v).recOutRtp = s.recOutRtp := rfl
@[simp] theorem State.writeInlen_recOutAnc (s : State) (v : Nat) :
    (s.writeInlen v).recOutAnc = s.recOutAnc := rfl
@[simp] theorem State.writeInlen_pending (s : State) (v : Nat) : (s.writeInlen v).pending = s.pending := rfl
@[simp] theorem State.writeInlen_readData (s : State) (v : Nat) :
    (s.writeInlen v).readData = s.readData := rfl
@[simp] theorem State.writeInlen_resets (s : State) (v : Nat) : (s.writeInlen v).resets = s.resets := rfl
@[simp] theorem State.writeInlen_outDraws (s : State) (v : Nat) :
    (s.writeInlen v).outDraws = s.outDraws := rfl

@[simp] theorem State.resetEvent_arg (s : State) : s.resetEvent.arg = State.reset.arg := rfl
@[simp] theorem State.resetEvent_result (s : State) : s.resetEvent.result = State.reset.result := rfl
@[simp] theorem State.resetEvent_status (s : State) : s.resetEvent.status = State.reset.status := rfl
@[simp] theorem State.resetEvent_inlen (s : State) : s.resetEvent.inlen = State.reset.inlen := rfl
@[simp] theorem State.resetEvent_outlen (s : State) : s.resetEvent.outlen = State.reset.outlen := rfl
@[simp] theorem State.resetEvent_mode (s : State) : s.resetEvent.mode = State.reset.mode := rfl
@[simp] theorem State.resetEvent_pos (s : State) : s.resetEvent.pos = State.reset.pos := rfl
@[simp] theorem State.resetEvent_inbuf (s : State) : s.resetEvent.inbuf = State.reset.inbuf := rfl
@[simp] theorem State.resetEvent_outbuf (s : State) : s.resetEvent.outbuf = State.reset.outbuf := rfl
@[simp] theorem State.resetEvent_recInRtp (s : State) : s.resetEvent.recInRtp = Config.recInRtpDraw (s.resets + 1) := rfl
@[simp] theorem State.resetEvent_recInAnc (s : State) : s.resetEvent.recInAnc = Config.recInAncDraw (s.resets + 1) := rfl
@[simp] theorem State.resetEvent_recOutRtp (s : State) : s.resetEvent.recOutRtp = State.reset.recOutRtp := rfl
@[simp] theorem State.resetEvent_recOutAnc (s : State) : s.resetEvent.recOutAnc = State.reset.recOutAnc := rfl
@[simp] theorem State.resetEvent_pending (s : State) : s.resetEvent.pending = s.pending := rfl
@[simp] theorem State.resetEvent_readData (s : State) : s.resetEvent.readData = State.reset.readData := rfl
@[simp] theorem State.resetEvent_resets (s : State) : s.resetEvent.resets = s.resets + 1 := rfl
@[simp] theorem State.resetEvent_outDraws (s : State) : s.resetEvent.outDraws = s.outDraws + 1 := rfl

@[simp] theorem State.settle_error (s : State) (e : CmdError) : s.settle (.error e) = s.raise e := rfl
@[simp] theorem State.settle_ok (s t : State) (a : Advisories) : s.settle (.ok (t, a)) = t.succeed a := rfl

end Sys2Proof.Machine
end

