-- ==== Sys2Proof/Laws/Ops.lean ====
section
/-! SUPPORT. What the shared operations of a command answer: capacities, the buffers as byte strings,
the STATUS word, the operand checks, the ending of a command. -/

namespace Sys2Proof.Machine

/-! ### Capacities -/

theorem inCap_bounds : Config.minCap ≤ Config.inCap ∧ Config.inCap ≤ Config.maxCap := by
  have := Config.inCapSpare.isLt
  unfold Config.inCap Config.minCap Config.maxCap
  omega

theorem outCap_bounds : Config.minCap ≤ Config.outCap ∧ Config.outCap ≤ Config.maxCap := by
  have := Config.outCapSpare.isLt
  unfold Config.outCap Config.minCap Config.maxCap
  omega

theorem fitsIn_iff (n : Nat) : fitsIn n = true ↔ n ≤ Config.inCap := by
  have := inCap_bounds.1
  simp only [fitsIn, fitsCap, Bool.or_eq_true, decide_eq_true_eq]
  omega

theorem fitsOut_iff (n : Nat) : fitsOut n = true ↔ n ≤ Config.outCap := by
  have := outCap_bounds.1
  simp only [fitsOut, fitsCap, Bool.or_eq_true, decide_eq_true_eq]
  omega

/-- The clamp of a host write of INLEN (10_state.md R28). -/
theorem clampInlen (v : Nat) : (if fitsIn v then v else Config.inCap) = min v Config.inCap := by
  by_cases h : fitsIn v = true
  · rw [if_pos h, Nat.min_eq_left ((fitsIn_iff v).mp h)]
  · have : ¬ v ≤ Config.inCap := fun hv => h ((fitsIn_iff v).mpr hv)
    rw [if_neg h, Nat.min_eq_right (by omega)]

/-! ### Buffers -/

@[simp] theorem State.length_inBytes (s : State) : s.inBytes.length = s.inlen := by simp [State.inBytes]

@[simp] theorem State.length_outBytes (s : State) : s.outBytes.length = s.outlen := by
  simp [State.outBytes]

theorem State.getElem?_inBytes (s : State) (k : Nat) (h : k < s.inlen) :
    s.inBytes[k]? = some (s.inbufByte k) := by
  simp [State.inBytes, h]

theorem State.getElem?_outBytes (s : State) (k : Nat) (h : k < s.outlen) :
    s.outBytes[k]? = some (s.outbufCell k) := by
  simp [State.outBytes, h]

/-- The host reads the output as the array holds it. -/
theorem State.outbufByte_of_lt (s : State) (k : Nat) (h : k < s.outlen) :
    s.outbufByte k = s.outbufCell k := if_pos h

/-- A stream bit of a list of bytes, as a bit of the function that gives them. -/
theorem bitAt_eq_streamBit (B : List Byte) (byte : Nat → Byte) (q : Nat)
    (h : B[q / 8]? = some (byte (q / 8))) : bitAt B q = streamBit byte q := by
  simp [bitAt, streamBit, List.getD_eq_getElem?_getD, h]

theorem State.bitAt_inBytes (s : State) (q : Nat) (h : q < 8 * s.inlen) :
    bitAt s.inBytes q = streamBit s.inbufByte q :=
  bitAt_eq_streamBit _ _ _ (s.getElem?_inBytes _ (by omega))

theorem State.bitAt_outBytes (s : State) (q : Nat) (h : q < 8 * s.outlen) :
    bitAt s.outBytes q = streamBit s.outbufCell q :=
  bitAt_eq_streamBit _ _ _ (s.getElem?_outBytes _ (by omega))

/-- The value of a field is the sum of its bits, the first the most significant (20_memory.md R51). -/
theorem bitsValue_eq_fieldAt (B : List Byte) (byte : Nat → Byte) (p n : Nat)
    (h : ∀ i < n, bitAt B (p + i) = streamBit byte (p + i)) : bitsValue B p n = fieldAt byte p n := by
  induction n with
  | zero => rfl
  | succ n ih =>
    rw [bitsValue, ih (fun i hi => h i (by omega)), h n (by omega)]
    unfold fieldAt
    rw [Finset.sum_range_succ, Finset.mul_sum]
    congr 1
    · refine Finset.sum_congr rfl fun i hi => ?_
      have := Finset.mem_range.mp hi
      rw [show n + 1 - 1 - i = (n - 1 - i) + 1 by omega, Nat.pow_succ]
      ring
    · simp

/-- The bytes a WRBITS puts into OUTBUF. -/
theorem State.outbufCell_putOutput (s : State) (bs : List Byte) (k : Nat) :
    (s.putOutput bs).outbufCell k = (bs[k]?).getD (s.outbufCell k) := by
  unfold State.outbufCell
  simp only [State.putOutput_outbuf, State.putOutput_resets, Memory.read?_writeBytes]
  by_cases h : k < bs.length
  · rw [if_pos (by omega), Nat.sub_zero, List.getElem?_eq_getElem h]
    rfl
  · rw [if_neg (by omega), List.getElem?_eq_none (by omega)]
    rfl

/-- The bytes a packet encode puts into OUTBUF. -/
theorem State.outbufCell_commitPacket (s : State) (k : Nat) (bs : List Byte) (x : Nat) :
    (s.commitPacket k bs).outbufCell x =
      if k ≤ x then (bs[x - k]?).getD (s.outbufCell x) else s.outbufCell x := by
  unfold State.outbufCell
  simp only [State.commitPacket_outbuf, State.commitPacket_resets, Memory.read?_writeBytes]
  by_cases h : k ≤ x ∧ x < k + bs.length
  · rw [if_pos h, if_pos h.1, List.getElem?_eq_getElem (by omega)]
    rfl
  · rw [if_neg h]
    split
    · rw [List.getElem?_eq_none (by omega)]
      rfl
    · rfl

/-! ### STATUS -/

@[simp] theorem statusErr_statusWord (e : BitVec 4) (a : Advisories) : statusErr (statusWord e a) = e := by
  obtain ⟨p, c⟩ := a
  revert e
  cases p <;> cases c <;> decide

@[simp] theorem statusAdvParity_statusWord (e : BitVec 4) (a : Advisories) :
    statusAdvParity (statusWord e a) = a.parity := by
  obtain ⟨p, c⟩ := a
  revert e
  cases p <;> cases c <;> decide

@[simp] theorem statusAdvChecksum_statusWord (e : BitVec 4) (a : Advisories) :
    statusAdvChecksum (statusWord e a) = a.checksum := by
  obtain ⟨p, c⟩ := a
  revert e
  cases p <;> cases c <;> decide

/-- The STATUS word of a success without advisories. -/
theorem statusWord_clear : statusWord 0 .clear = 0 := by decide

/-- The STATUS word of each error (60_exceptions.md R251). -/
theorem statusWord_errCode (e : CmdError) :
    statusWord (errCode e) .clear = BitVec.ofNat 32 (errCode e).toNat := by
  cases e <;> decide

theorem errCode_ne_zero (e : CmdError) : errCode e ≠ 0 := by cases e <;> decide

/-! ### The ending of a command -/

/-- A command ends with the state its body wrote or with an error (60_exceptions.md R250). -/
theorem State.settle_cases (s : State) (r : Effect) :
    (∃ e, r = .error e ∧ s.settle r = s.raise e) ∨
      ∃ t a, r = .ok (t, a) ∧ s.settle r = t.succeed a := by
  rcases r with e | ⟨t, a⟩
  · exact Or.inl ⟨e, rfl, rfl⟩
  · exact Or.inr ⟨t, a, rfl, rfl⟩

/-- A command always completes. -/
theorem State.complete_next (s : State) (r : Effect) : s.complete r = .next (s.settle r) := rfl

/-! ### Operands -/

theorem widthOperand_cases (w : BitVec 6) :
    ((w.toNat = 0 ∨ 32 < w.toNat) ∧ widthOperand w = .error .illegalWidth) ∨
      (1 ≤ w.toNat ∧ w.toNat ≤ 32 ∧ widthOperand w = .ok w.toNat) := by
  unfold widthOperand legalWidth
  by_cases h : 1 ≤ w.toNat ∧ w.toNat ≤ 32
  · exact Or.inr ⟨h.1, h.2, if_pos (by simp [h])⟩
  · refine Or.inl ⟨by omega, if_neg ?_⟩
    simpa using fun h1 => by omega

theorem State.requireMode_cases (s : State) (m : CurMode) :
    (s.mode ≠ m ∧ s.requireMode m = .error .wrongMode) ∨ (s.mode = m ∧ s.requireMode m = .ok ()) := by
  unfold State.requireMode
  by_cases h : s.mode = m
  · exact Or.inr ⟨h, if_pos h⟩
  · exact Or.inl ⟨h, if_neg h⟩

theorem State.requireCursor_cases (s : State) :
    (s.mode = .idle ∧ s.requireCursor = .error .wrongMode) ∨
      (s.mode ≠ .idle ∧ s.requireCursor = .ok ()) := by
  unfold State.requireCursor
  by_cases h : s.mode = .idle
  · exact Or.inl ⟨h, if_pos h⟩
  · exact Or.inr ⟨h, if_neg h⟩

theorem State.seekOperand_cases (s : State) :
    (8 * s.cursorLen < s.arg.toNat ∧ s.seekOperand = .error .seekOutOfRange) ∨
      (s.arg.toNat ≤ 8 * s.cursorLen ∧ s.seekOperand = .ok s.arg.toNat) := by
  unfold State.seekOperand
  by_cases h : s.arg.toNat > 8 * s.cursorLen
  · exact Or.inl ⟨h, if_pos h⟩
  · exact Or.inr ⟨by omega, if_neg h⟩

theorem State.inPacketOperand_cases (s : State) :
    (s.inlen < s.arg.toNat ∧ s.inPacketOperand = .error .seekOutOfRange) ∨
      (s.arg.toNat ≤ s.inlen ∧ s.inPacketOperand = .ok (s.inBytes.drop s.arg.toNat)) := by
  unfold State.inPacketOperand
  by_cases h : s.arg.toNat > s.inlen
  · exact Or.inl ⟨h, if_pos h⟩
  · exact Or.inr ⟨by omega, if_neg h⟩

theorem State.outOffsetOperand_cases (s : State) :
    (s.outlen < s.arg.toNat ∧ s.outOffsetOperand = .error .seekOutOfRange) ∨
      (s.arg.toNat ≤ s.outlen ∧ s.outOffsetOperand = .ok s.arg.toNat) := by
  unfold State.outOffsetOperand
  by_cases h : s.arg.toNat > s.outlen
  · exact Or.inl ⟨h, if_pos h⟩
  · exact Or.inr ⟨by omega, if_neg h⟩

theorem State.messageOperand_cases (s : State) (store : Store) :
    ((s.storeMessages store)[s.arg.toNat]? = none ∧ s.messageOperand store = .error .indexOutOfRange) ∨
      ∃ m, (s.storeMessages store)[s.arg.toNat]? = some m ∧ s.messageOperand store = .ok m := by
  unfold State.messageOperand
  rcases h : (s.storeMessages store)[s.arg.toNat]? with _ | m
  · exact Or.inl ⟨rfl, rfl⟩
  · exact Or.inr ⟨m, rfl, rfl⟩

end Sys2Proof.Machine
end

