-- ==== Sys2Proof/Laws/Exec.lean ====
section
/-! SUPPORT. What each meaning can do: for every command the errors it can end with and the one next state
of its success, with the conditions of each case. -/

namespace Sys2Proof.Machine

theorem execRdbits_cases (w : BitVec 6) (s : State) :
    ((w.toNat = 0 ∨ 32 < w.toNat) ∧ execRdbits w s = .next (s.raise .illegalWidth)) ∨
    (1 ≤ w.toNat ∧ w.toNat ≤ 32 ∧ s.mode ≠ .read ∧ execRdbits w s = .next (s.raise .wrongMode)) ∨
    (1 ≤ w.toNat ∧ w.toNat ≤ 32 ∧ s.mode = .read ∧ 8 * s.inlen < s.pos + w.toNat ∧
      execRdbits w s = .next (s.raise .truncatedInput)) ∨
    (1 ≤ w.toNat ∧ w.toNat ≤ 32 ∧ s.mode = .read ∧ s.pos + w.toNat ≤ 8 * s.inlen ∧
      execRdbits w s = .next (State.succeed
        { s with result := BitVec.ofNat 32 (bitsValue s.inBytes s.pos w.toNat), pos := s.pos + w.toNat }
        .clear)) := by
  rcases widthOperand_cases w with ⟨hw, h⟩ | ⟨h1, h2, h⟩
  · exact Or.inl ⟨hw, by simp only [execRdbits, h]; rfl⟩
  · refine Or.inr ?_
    rcases s.requireMode_cases .read with ⟨hm, hr⟩ | ⟨hm, hr⟩
    · exact Or.inl ⟨h1, h2, hm, by simp only [execRdbits, h, hr]; rfl⟩
    · refine Or.inr ?_
      rcases readBitsF_cases s.inBytes s.pos w.toNat with ⟨hp, hv⟩ | ⟨hp, hv⟩ <;>
        rw [s.length_inBytes] at hp
      · exact Or.inl ⟨h1, h2, hm, hp, by simp only [execRdbits, h, hr, bind, Except.bind, hv]; rfl⟩
      · exact Or.inr ⟨h1, h2, hm, hp, by simp only [execRdbits, h, hr, bind, Except.bind, hv]; rfl⟩

theorem execWrbits_cases (w : BitVec 6) (s : State) :
    ((w.toNat = 0 ∨ 32 < w.toNat) ∧ execWrbits w s = .next (s.raise .illegalWidth)) ∨
    (1 ≤ w.toNat ∧ w.toNat ≤ 32 ∧ s.mode ≠ .write ∧ execWrbits w s = .next (s.raise .wrongMode)) ∨
    (1 ≤ w.toNat ∧ w.toNat ≤ 32 ∧ s.mode = .write ∧ 2 ^ w.toNat ≤ s.arg.toNat ∧
      execWrbits w s = .next (s.raise .valueOutOfRange)) ∨
    (1 ≤ w.toNat ∧ w.toNat ≤ 32 ∧ s.mode = .write ∧ s.arg.toNat < 2 ^ w.toNat ∧
      Config.outCap < grownLength s.outlen s.pos w.toNat ∧
      execWrbits w s = .next (s.raise .outputFull)) ∨
    (1 ≤ w.toNat ∧ w.toNat ≤ 32 ∧ s.mode = .write ∧ s.arg.toNat < 2 ^ w.toNat ∧
      grownLength s.outlen s.pos w.toNat ≤ Config.outCap ∧
      ∃ bytes, writeBitsF s.outBytes s.pos w.toNat s.arg.toNat fitsOut = .ok (bytes, s.pos + w.toNat) ∧
        execWrbits w s = .next (State.succeed { s.putOutput bytes with pos := s.pos + w.toNat } .clear)) := by
  rcases widthOperand_cases w with ⟨hw, h⟩ | ⟨h1, h2, h⟩
  · exact Or.inl ⟨hw, by simp only [execWrbits, h]; rfl⟩
  · refine Or.inr ?_
    rcases s.requireMode_cases .write with ⟨hm, hr⟩ | ⟨hm, hr⟩
    · exact Or.inl ⟨h1, h2, hm, by simp only [execWrbits, h, hr]; rfl⟩
    · refine Or.inr ?_
      rcases writeBitsF_cases s.outBytes s.pos w.toNat s.arg.toNat fitsOut with
        ⟨hv, he⟩ | ⟨hv, hc, he⟩ | ⟨hv, hc, he⟩
      · exact Or.inl ⟨h1, h2, hm, hv, by simp only [execWrbits, h, hr, bind, Except.bind, he]; rfl⟩
      · refine Or.inr (Or.inl ⟨h1, h2, hm, hv, ?_, ?_⟩)
        · rw [s.length_outBytes] at hc
          have : ¬ grownLength s.outlen s.pos w.toNat ≤ Config.outCap := fun hle => by
            rw [(fitsOut_iff _).mpr hle] at hc
            cases hc
          omega
        · simp only [execWrbits, h, hr, bind, Except.bind, he]
          rfl
      · rw [s.length_outBytes] at hc
        refine Or.inr (Or.inr ⟨h1, h2, hm, hv, (fitsOut_iff _).mp hc, _, he, ?_⟩)
        simp only [execWrbits, h, hr, bind, Except.bind, he]
        rfl

theorem execGetpos_cases (s : State) :
    (s.mode = .idle ∧ execGetpos s = .next (s.raise .wrongMode)) ∨
    (s.mode ≠ .idle ∧ execGetpos s = .next (State.succeed { s with result := BitVec.ofNat 32 s.pos } .clear)) := by
  rcases s.requireCursor_cases with ⟨hm, h⟩ | ⟨hm, h⟩
  · exact Or.inl ⟨hm, by simp only [execGetpos, h]; rfl⟩
  · exact Or.inr ⟨hm, by simp only [execGetpos, h]; rfl⟩

theorem execSeek_cases (s : State) :
    (s.mode = .idle ∧ execSeek s = .next (s.raise .wrongMode)) ∨
    (s.mode ≠ .idle ∧ 8 * s.cursorLen < s.arg.toNat ∧ execSeek s = .next (s.raise .seekOutOfRange)) ∨
    (s.mode ≠ .idle ∧ s.arg.toNat ≤ 8 * s.cursorLen ∧
      execSeek s = .next (State.succeed { s with pos := s.arg.toNat } .clear)) := by
  rcases s.requireCursor_cases with ⟨hm, h⟩ | ⟨hm, h⟩
  · exact Or.inl ⟨hm, by simp only [execSeek, h]; rfl⟩
  · rcases s.seekOperand_cases with ⟨hp, hk⟩ | ⟨hp, hk⟩
    · exact Or.inr (Or.inl ⟨hm, hp, by simp only [execSeek, h, hk]; rfl⟩)
    · exact Or.inr (Or.inr ⟨hm, hp, by simp only [execSeek, h, hk]; rfl⟩)

theorem execRemain_cases (s : State) :
    (s.mode = .idle ∧ execRemain s = .next (s.raise .wrongMode)) ∨
    (s.mode ≠ .idle ∧
      execRemain s = .next (State.succeed { s with result := BitVec.ofNat 32 (8 * s.cursorLen - s.pos) } .clear)) := by
  rcases s.requireCursor_cases with ⟨hm, h⟩ | ⟨hm, h⟩
  · exact Or.inl ⟨hm, by simp only [execRemain, h]; rfl⟩
  · exact Or.inr ⟨hm, by simp only [execRemain, h]; rfl⟩

theorem execDecrtp_cases (s : State) :
    (s.inlen < s.arg.toNat ∧ execDecrtp s = .next (s.raise .seekOutOfRange)) ∨
    (∃ e, s.arg.toNat ≤ s.inlen ∧ decodeRtpHeader (s.inBytes.drop s.arg.toNat) = .error e ∧
      execDecrtp s = .next (s.raise e)) ∨
    (∃ h n, s.arg.toNat ≤ s.inlen ∧ decodeRtpHeader (s.inBytes.drop s.arg.toNat) = .ok (h, n) ∧
      execDecrtp s =
        .next (State.succeed { s with recOutRtp := some h, result := BitVec.ofNat 32 n } .clear)) := by
  rcases s.inPacketOperand_cases with ⟨hk, h⟩ | ⟨hk, h⟩
  · exact Or.inl ⟨hk, by simp only [execDecrtp, h]; rfl⟩
  · rcases hd : decodeRtpHeader (s.inBytes.drop s.arg.toNat) with e | ⟨hdr, n⟩
    · exact Or.inr (Or.inl ⟨e, hk, rfl, by simp only [execDecrtp, h, bind, Except.bind, hd]; rfl⟩)
    · exact Or.inr (Or.inr ⟨hdr, n, hk, rfl, by simp only [execDecrtp, h, bind, Except.bind, hd]; rfl⟩)

theorem execDecanc_cases (s : State) :
    (s.inlen < s.arg.toNat ∧ execDecanc s = .next (s.raise .seekOutOfRange)) ∨
    (∃ e, s.arg.toNat ≤ s.inlen ∧ decodeAncPacket (s.inBytes.drop s.arg.toNat) = .error e ∧
      execDecanc s = .next (s.raise e)) ∨
    (∃ p n, s.arg.toNat ≤ s.inlen ∧ decodeAncPacket (s.inBytes.drop s.arg.toNat) = .ok (p, n) ∧
      execDecanc s =
        .next (State.succeed { s with recOutAnc := some p, result := BitVec.ofNat 32 n } p.advisories)) := by
  rcases s.inPacketOperand_cases with ⟨hk, h⟩ | ⟨hk, h⟩
  · exact Or.inl ⟨hk, by simp only [execDecanc, h]; rfl⟩
  · rcases hd : decodeAncPacket (s.inBytes.drop s.arg.toNat) with e | ⟨p, n⟩
    · exact Or.inr (Or.inl ⟨e, hk, rfl, by simp only [execDecanc, h, bind, Except.bind, hd]; rfl⟩)
    · exact Or.inr (Or.inr ⟨p, n, hk, rfl, by simp only [execDecanc, h, bind, Except.bind, hd]; rfl⟩)

/-- The placing of an encode's bytes, for both packet encodes. -/
theorem State.placePacket_cases (s : State) (r : Except CmdError (List Byte)) :
    (s.outlen < s.arg.toNat ∧ s.placePacket r = .error .seekOutOfRange) ∨
    (∃ e, s.arg.toNat ≤ s.outlen ∧ r = .error e ∧ s.placePacket r = .error e) ∨
    (∃ bytes, s.arg.toNat ≤ s.outlen ∧ r = .ok bytes ∧ Config.outCap < s.arg.toNat + bytes.length ∧
      s.placePacket r = .error .outputFull) ∨
    (∃ bytes, s.arg.toNat ≤ s.outlen ∧ r = .ok bytes ∧ s.arg.toNat + bytes.length ≤ Config.outCap ∧
      s.placePacket r = .ok (s.commitPacket s.arg.toNat bytes, .clear)) := by
  rcases s.outOffsetOperand_cases with ⟨hk, h⟩ | ⟨hk, h⟩
  · exact Or.inl ⟨hk, by simp only [State.placePacket, h]; rfl⟩
  · refine Or.inr ?_
    rcases r with e | bytes
    · exact Or.inl ⟨e, hk, rfl, by simp only [State.placePacket, h]; rfl⟩
    · refine Or.inr ?_
      by_cases hc : fitsOut (s.arg.toNat + bytes.length) = true
      · refine Or.inr ⟨bytes, hk, rfl, (fitsOut_iff _).mp hc, ?_⟩
        simp only [State.placePacket, h, bind, Except.bind, if_pos hc]
        rfl
      · refine Or.inl ⟨bytes, hk, rfl, ?_, ?_⟩
        · have := mt (fitsOut_iff (s.arg.toNat + bytes.length)).mpr hc
          omega
        · simp only [State.placePacket, h, bind, Except.bind, if_neg hc]
          rfl

/-- Completing a placed encode, for both packet encodes. -/
theorem State.complete_placePacket_cases (s : State) (r : Except CmdError (List Byte)) :
    (s.outlen < s.arg.toNat ∧ s.complete (s.placePacket r) = .next (s.raise .seekOutOfRange)) ∨
    (∃ e, s.arg.toNat ≤ s.outlen ∧ r = .error e ∧ s.complete (s.placePacket r) = .next (s.raise e)) ∨
    (∃ bytes, s.arg.toNat ≤ s.outlen ∧ r = .ok bytes ∧ Config.outCap < s.arg.toNat + bytes.length ∧
      s.complete (s.placePacket r) = .next (s.raise .outputFull)) ∨
    (∃ bytes, s.arg.toNat ≤ s.outlen ∧ r = .ok bytes ∧ s.arg.toNat + bytes.length ≤ Config.outCap ∧
      s.complete (s.placePacket r) = .next ((s.commitPacket s.arg.toNat bytes).succeed .clear)) := by
  unfold State.complete
  rcases s.placePacket_cases r with ⟨h, hr⟩ | ⟨e, h, h1, hr⟩ | ⟨b, h, h1, h2, hr⟩ | ⟨b, h, h1, h2, hr⟩ <;>
    rw [hr]
  · exact Or.inl ⟨h, rfl⟩
  · exact Or.inr (Or.inl ⟨e, h, h1, rfl⟩)
  · exact Or.inr (Or.inr (Or.inl ⟨b, h, h1, h2, rfl⟩))
  · exact Or.inr (Or.inr (Or.inr ⟨b, h, h1, h2, rfl⟩))

theorem execEncrtp_cases (s : State) :
    (s.outlen < s.arg.toNat ∧ execEncrtp s = .next (s.raise .seekOutOfRange)) ∨
    (∃ e, s.arg.toNat ≤ s.outlen ∧ encodeRtpHeader s.recInRtp = .error e ∧
      execEncrtp s = .next (s.raise e)) ∨
    (∃ bytes, s.arg.toNat ≤ s.outlen ∧ encodeRtpHeader s.recInRtp = .ok bytes ∧
      Config.outCap < s.arg.toNat + bytes.length ∧ execEncrtp s = .next (s.raise .outputFull)) ∨
    (∃ bytes, s.arg.toNat ≤ s.outlen ∧ encodeRtpHeader s.recInRtp = .ok bytes ∧
      s.arg.toNat + bytes.length ≤ Config.outCap ∧
      execEncrtp s = .next ((s.commitPacket s.arg.toNat bytes).succeed .clear)) :=
  s.complete_placePacket_cases _

theorem execEncanc_cases (s : State) :
    (s.outlen < s.arg.toNat ∧ execEncanc s = .next (s.raise .seekOutOfRange)) ∨
    (∃ e, s.arg.toNat ≤ s.outlen ∧ encodeAncPacket s.recInAnc = .error e ∧
      execEncanc s = .next (s.raise e)) ∨
    (∃ bytes, s.arg.toNat ≤ s.outlen ∧ encodeAncPacket s.recInAnc = .ok bytes ∧
      Config.outCap < s.arg.toNat + bytes.length ∧ execEncanc s = .next (s.raise .outputFull)) ∨
    (∃ bytes, s.arg.toNat ≤ s.outlen ∧ encodeAncPacket s.recInAnc = .ok bytes ∧
      s.arg.toNat + bytes.length ≤ Config.outCap ∧
      execEncanc s = .next ((s.commitPacket s.arg.toNat bytes).succeed .clear)) :=
  s.complete_placePacket_cases _

theorem execVerifycs_cases (st : Store) (s : State) :
    ((s.storeMessages st)[s.arg.toNat]? = none ∧
      execVerifycs st s = .next (s.raise .indexOutOfRange)) ∨
    ∃ m, (s.storeMessages st)[s.arg.toNat]? = some m ∧
      execVerifycs st s = .next (State.succeed
        { s with result := BitVec.ofNat 32 (verifyMessage m).toNat } ⟨false, !verifyMessage m⟩) := by
  rcases s.messageOperand_cases st with ⟨hm, h⟩ | ⟨m, hm, h⟩
  · exact Or.inl ⟨hm, by simp only [execVerifycs, h]; rfl⟩
  · exact Or.inr ⟨m, hm, by simp only [execVerifycs, h]; rfl⟩

end Sys2Proof.Machine
end

