-- ==== Sys2Proof/Laws/PerInstr.lean ====
section
/-! SUPPORT. Per-instruction laws of the encoding: the family EncodedFields says that every field of a command's
word stands where 30_encoding.md R70 puts it. -/

namespace Sys2Proof

/-- The word of the command holds its OP, its W, its S, and RSV = 0 (30_encoding.md R70 to R74). -/
def Laws.EncodedFields.Statement (i : Instr) : Prop :=
  opField (encode i) = i.op.code ∧ wField (encode i) = i.widthField ∧
    sField (encode i) = (i.storeField == 1) ∧ rsvField (encode i) = 0

theorem Laws.EncodedFields.cinitr : Laws.EncodedFields.Statement .cinitr := by
  unfold Laws.EncodedFields.Statement
  decide

theorem Laws.EncodedFields.cinitw : Laws.EncodedFields.Statement .cinitw := by
  unfold Laws.EncodedFields.Statement
  decide

theorem Laws.EncodedFields.rdbits (w : BitVec 6) : Laws.EncodedFields.Statement (.rdbits w) := by
  unfold Laws.EncodedFields.Statement
  revert w
  decide

theorem Laws.EncodedFields.wrbits (w : BitVec 6) : Laws.EncodedFields.Statement (.wrbits w) := by
  unfold Laws.EncodedFields.Statement
  revert w
  decide

theorem Laws.EncodedFields.getpos : Laws.EncodedFields.Statement .getpos := by
  unfold Laws.EncodedFields.Statement
  decide

theorem Laws.EncodedFields.seek : Laws.EncodedFields.Statement .seek := by
  unfold Laws.EncodedFields.Statement
  decide

theorem Laws.EncodedFields.remain : Laws.EncodedFields.Statement .remain := by
  unfold Laws.EncodedFields.Statement
  decide

theorem Laws.EncodedFields.decrtp : Laws.EncodedFields.Statement .decrtp := by
  unfold Laws.EncodedFields.Statement
  decide

theorem Laws.EncodedFields.encrtp : Laws.EncodedFields.Statement .encrtp := by
  unfold Laws.EncodedFields.Statement
  decide

theorem Laws.EncodedFields.decanc : Laws.EncodedFields.Statement .decanc := by
  unfold Laws.EncodedFields.Statement
  decide

theorem Laws.EncodedFields.encanc : Laws.EncodedFields.Statement .encanc := by
  unfold Laws.EncodedFields.Statement
  decide

theorem Laws.EncodedFields.verifycs (store : Store) : Laws.EncodedFields.Statement (.verifycs store) := by
  unfold Laws.EncodedFields.Statement
  cases store <;> decide

end Sys2Proof
end

