-- ==== Sys2Proof/Tests/Slice0.lean ====
section
/-! SUPPORT. The checks of WellFormed, the decoding of words written out from 30_encoding.md, one-step runs with the
values of 95_test_vectors.md, and for every statement with hypotheses a state that meets them. -/

namespace Sys2Proof.Machine.Slice0

/-! ### WellFormed and Decode -/

theorem test_width_0_is_ill_formed : (Instr.rdbits 0).wellFormed = false ∧ (Instr.wrbits 0).wellFormed = false := by
  decide

theorem test_width_33_is_ill_formed : (Instr.rdbits 33).wellFormed = false ∧ (Instr.wrbits 33).wellFormed = false := by
  decide

theorem test_widths_1_and_32_are_well_formed :
    (Instr.rdbits 1).wellFormed = true ∧ (Instr.rdbits 32).wellFormed = true ∧
    (Instr.wrbits 1).wellFormed = true ∧ (Instr.wrbits 32).wellFormed = true := by
  decide

/-- Source: 30_encoding.md R77, RSV S W OP written out. -/
theorem test_decode_cursor_words :
    decode 0b00000000000000000000000000000001 = .ok .cinitr ∧
    decode 0b00000000000000000000000000000010 = .ok .cinitw ∧
    decode 0b00000000000000000001000000000011 = .ok (.rdbits 16) ∧
    decode 0b00000000000000000000011100000100 = .ok (.wrbits 7) ∧
    decode 0b00000000000000000000000000000101 = .ok .getpos ∧
    decode 0b00000000000000000000000000000110 = .ok .seek ∧
    decode 0b00000000000000000000000000000111 = .ok .remain := by
  decide

/-- Source: 30_encoding.md R77. -/
theorem test_decode_packet_words :
    decode 0b00000000000000000000000000010000 = .ok .decrtp ∧
    decode 0b00000000000000000000000000010001 = .ok .encrtp ∧
    decode 0b00000000000000000000000000010010 = .ok .decanc ∧
    decode 0b00000000000000000000000000010011 = .ok .encanc ∧
    decode 0b00000000000000000000000000010100 = .ok (.verifycs .recOut) ∧
    decode 0b00000000000000000100000000010100 = .ok (.verifycs .recIn) := by
  decide

/-- Source: the error rows of 95_test_vectors.md 2.1. -/
theorem test_decode_refuses :
    [0x00, 0x08, 0x0F, 0x15, 0xFF, 0x8001, 0x80000014, 0x4001, 0x4003, 0x105, 0x114].map decode =
      List.replicate 11 (.error .illegalCommand) := by
  decide

theorem test_decodeTableWord :
    decodeTableWord 32 0x303 = some (.rdbits 3) ∧ decodeTableWord 32 0 = none := by
  decide

/-! ### One step of each command, with the values of 95_test_vectors.md -/

/-- The state after a command. -/
def after (i : Instr) (s : State) : State :=
  match exec i s with
  | .next t => t
  | .fault _ => s
  | .refused _ => s

/-- The start state of V-CUR-1 to V-CUR-12: `A5 3C FF 00` and a reader. -/
def reader : State :=
  { State.reset with inlen := 4, mode := .read, inbuf := [(0, 0xA5), (1, 0x3C), (2, 0xFF), (3, 0x00)] }

/-- The state of V-WR-6: the output `A5 3C` and a writer at its end. -/
def writer : State :=
  { State.reset with outlen := 2, mode := .write, pos := 16, outbuf := [(0, 0xA5), (1, 0x3C)] }

/-- An input of the bytes given, with no cursor. -/
def input (bs : List Byte) : State :=
  { State.reset with inlen := bs.length, inbuf := (List.range bs.length).zip bs }

/-- V-RTP-1. -/
def headerBytes : List Byte :=
  [0x80, 0xE4, 0x12, 0x34, 0x00, 0x01, 0xE2, 0x40, 0xDE, 0xAD, 0xBE, 0xEF, 0x00, 0x07, 0x00, 0x14]

/-- H0. -/
def header : RtpHeader := ⟨2, 0, 0, 0, 1, 100, 0x1234, 123456, 0xDEADBEEF, 7, 20⟩

/-- V-ANC-3. -/
def payloadBytes : List Byte :=
  [0x01, 0xC0, 0x00, 0x00, 0x00, 0x90, 0x00, 0x80, 0x98, 0x50, 0x14, 0x0D, 0x96, 0x5A, 0x60, 0x15, 0x94, 0x00, 0x00,
   0x00]

/-- m1 with its derived fields, V-VM-6. -/
def message : AncMessage := ⟨0, 9, 0, 1, 0, 0x261, 0x101, 0b01, 3, [0x96, 0x69, 0x01], 0x165⟩

/-- The record of V-ANC-3. -/
def payload : AncPacket := ⟨1, 3, 0, [message]⟩

theorem test_rdbits_straddles_bytes :
    (after (.rdbits 8) { reader with pos := 4 }).result = 0x53 ∧
    (after (.rdbits 8) { reader with pos := 4 }).pos = 12 := by
  decide

theorem test_rdbits_reads_to_the_end :
    (after (.rdbits 31) { reader with pos := 1 }).result = 0x253CFF00 ∧
    (after (.rdbits 7) { reader with pos := 26 }).status = 1 := by
  decide

theorem test_wrbits_overwrites_in_place :
    (after (.wrbits 8) { writer with pos := 4, arg := 0xFF }).outBytes = [0xAF, 0xFC] ∧
    (after (.wrbits 8) { writer with pos := 4, arg := 0xFF }).pos = 12 := by
  decide

theorem test_wrbits_grows_by_zero_bits :
    (after (.wrbits 3) { writer with arg := 5 }).outBytes = [0xA5, 0x3C, 0xA0] ∧
    (after (.wrbits 4) { writer with arg := 16 }).status = 3 := by
  decide

theorem test_cinitr : (after .cinitr writer).mode = .read ∧ (after .cinitr writer).pos = 0 := by decide

theorem test_cinitw : (after .cinitw writer).outlen = 0 ∧ (after .cinitw writer).outbuf = writer.outbuf := by decide

theorem test_getpos : (after .getpos writer).result = 16 ∧ (after .getpos State.reset).status = 6 := by decide

theorem test_seek :
    (after .seek { reader with arg := 32 }).pos = 32 ∧ (after .seek { reader with arg := 33 }).status = 7 := by
  decide

theorem test_remain : (after .remain { reader with pos := 26 }).result = 6 := by decide

theorem test_decrtp :
    (after .decrtp (input headerBytes)).recOutRtp = some header ∧
    (after .decrtp { input headerBytes with arg := 16 }).status = 1 := by
  decide

set_option maxRecDepth 20000 in
theorem test_encrtp :
    (after .encrtp { State.reset with recInRtp := header }).outBytes = headerBytes ∧
    (after .encrtp { State.reset with recInRtp := { header with timestamp := 2 ^ 32 } }).status = 2 := by
  decide

theorem test_decanc :
    (after .decanc (input payloadBytes)).recOutAnc = some ⟨1, 3, 0, [⟨message, false, 0, false⟩]⟩ ∧
    (after .decanc (input payloadBytes)).result = 20 ∧ (after .decanc (input payloadBytes)).status = 0 := by
  decide

/-- V-SUB-5: one user-data word of wrong parity, its byte kept. -/
theorem test_decanc_reports_bad_parity :
    (after .decanc (input (payloadBytes.set 11 0x0E))).status = 0x100 ∧
    (after .decanc (input (payloadBytes.set 11 0x0E))).recOutAnc = some ⟨1, 3, 0, [⟨message, false, 1, false⟩]⟩ := by
  decide

set_option maxRecDepth 20000 in
theorem test_encanc :
    (after .encanc { State.reset with recInAnc := payload }).outBytes = payloadBytes ∧
    (after .encanc { State.reset with recInAnc := payload }).result = 20 := by
  decide

set_option maxRecDepth 20000 in
/-- V-ANC-5: twelve bytes FF, whose padding is 32 bits. -/
theorem test_encanc_with_full_padding :
    (after .encanc { State.reset with
        recInAnc := ⟨0, 0, 0, [⟨0, 0, 0, 0, 0, 0x1FF, 0x1FF, 0, 0, List.replicate 12 0xFF, 0⟩]⟩ }).outBytes =
      [0x01, 0x00, 0x00, 0x00, 0x00, 0x00, 0x00, 0x00, 0x7F, 0xDF, 0xF4, 0x31, 0xFF, 0x7F, 0xDF, 0xF7, 0xFD, 0xFF, 0x7F,
       0xDF, 0xF7, 0xFD, 0xFF, 0x7F, 0xDF, 0xF7, 0xFE, 0xFE, 0x00, 0x00, 0x00, 0x00] := by
  decide

theorem test_verifycs :
    (after (.verifycs .recIn) { State.reset with recInAnc := payload }).result = 1 ∧
    (after (.verifycs .recOut) State.reset).status = 9 := by
  decide

/-- V-VM-3: all 10 bits of the checksum are compared. -/
theorem test_verifycs_compares_ten_bits :
    (after (.verifycs .recIn) { State.reset with
      recInAnc := ⟨1, 0, 0, [⟨0, 0, 0, 0, 0, 0, 0, 1, 0, [], 0x300⟩]⟩ }).status = 0x200 := by
  decide

set_option maxRecDepth 20000 in
/-- V-CS-4, V-CS-5 and V-CS-7. -/
theorem test_checksums :
    checksumWord 0x1FF 0x1FF 12 (List.replicate 12 0xFF) = 0x2FE ∧
    checksumWord 0 0 255 (List.replicate 255 0xFF) = 0x100 ∧ checksumWord 0 0 1 [0xFF] = 0x200 := by
  decide

theorem test_assembler :
    assembleLine "  WRBITS 7, 0x14 ; a comment".toList = some [.writeWord 4 20, .writeWord 0 0x704] ∧
    assembleLine "inbytes 1, A5 3c".toList = some [.writeByte 0x100001 0xA5, .writeByte 0x100002 0x3C] ∧
    assembleLine "rdbits 33".toList = none := by
  decide

theorem test_reset_memories_are_canonical : State.reset.inbuf.wf = true ∧ State.reset.outbuf.wf = true := by decide

/-! ### States that meet the hypotheses of the statements, at the boundary values of each clause -/

/-- The state after reset with the accesses given pending. -/
def served (l : List HostAccess) : State := { State.reset with pending := l }

/-- OUTBUF full, the writer at its end and ARG the capacity. -/
def fullOut : State :=
  { State.reset with
    outlen := Config.outCap
    mode := .write
    pos := 8 * Config.outCap
    arg := BitVec.ofNat 32 Config.outCap }

theorem fullOut_arg : fullOut.arg.toNat = Config.outCap := by
  have := outCap_bounds.2
  unfold Config.maxCap at this
  simp only [fullOut, BitVec.toNat_ofNat]
  omega

/-- The first clause's condition of IllegalWordsChangeOnlyStatus, on a word. -/
def illegalWord (w : Nat) : Bool :=
  let op := w % 2 ^ 8
  decide (op = 0x00 ∨ (0x08 ≤ op ∧ op ≤ 0x0F) ∨ 0x15 ≤ op ∨ w / 2 ^ 15 ≠ 0 ∨ (w / 2 ^ 14 % 2 ≠ 0 ∧ op ≠ 0x14) ∨
    (w / 2 ^ 8 % 2 ^ 6 ≠ 0 ∧ op ≠ 0x03 ∧ op ≠ 0x04))

/-- IllegalWordsChangeOnlyStatus: each cause of the first clause, and words of the second at the ends of the legal
ranges. -/
theorem witness_IllegalWordsChangeOnlyStatus :
    [0x00, 0x08, 0x0F, 0x15, 0xFF, 0x8001, 0x80000014, 0x4001, 0x105].all illegalWord = true ∧
    [0x01, 0x07, 0x10, 0x14, 0x4014, 0x03, 0x3F04].any illegalWord = false := by
  decide

/-- WordChecksRunInOrder: a word for each of its six branches, with the STATUS it leaves. -/
theorem witness_WordChecksRunInOrder :
    [0x15, 0x8003, 0x4003, 0x2103, 0x105, 0x2003].map (fun w => match runCommand w State.reset with
      | .next t => t.status
      | .fault _ => 0xFF
      | .refused _ => 0xFF) = [5, 5, 5, 4, 5, 6] := by
  decide

/-- StepRunsTheDecodedCommand, both forms of the access. -/
theorem witness_StepRunsTheDecodedCommand :
    decode 0x4014 = .ok (.verifycs .recIn) ∧
    (served [.writeWord 0 0x4014]).pending = .writeWord 0 0x4014 :: [] ∧
    ∃ b0 b1 b2 b3, busWord Config.hostBusEndian b0 b1 b2 b3 = 0x4014 ∧
      (served [.writeWordBytes 0 b0 b1 b2 b3]).pending = .writeWordBytes 0 b0 b1 b2 b3 :: [] := by
  refine ⟨by decide, rfl, ?_⟩
  cases Config.hostBusEndian
  · exact ⟨0x14, 0x40, 0, 0, by decide, rfl⟩
  · exact ⟨0, 0, 0x40, 0x14, by decide, rfl⟩

theorem witness_StepServesTheOldestAccess :
    State.reset.pending = [] ∧ (served [.reset, .readWord 4]).pending = .reset :: [.readWord 4] :=
  ⟨rfl, rfl⟩

theorem witness_InlenWriteClampsAndStopsAReader :
    runCommand 1 State.reset = .next (after .cinitr State.reset) := rfl

/-- HostAccessSideEffects: one access for each clause, at the ends of the INBUF window. -/
theorem witness_HostAccessSideEffects :
    (served [.readWord 0x24]).pending = .readWord 0x24 :: [] ∧
    (served [.readByte 0x200000]).pending = .readByte 0x200000 :: [] ∧
    (served [.writeWord 0x04 7]).pending = .writeWord 0x04 7 :: [] ∧
    (served [.writeWord 0x08 7]).pending = .writeWord 0x08 7 :: [] ∧
    ((served [.writeByte (0x100000 + 0) 7]).pending = .writeByte (0x100000 + 0) 7 :: [] ∧ 0 < Config.inCap) ∧
    ((served [.writeByte (0x100000 + (Config.inCap - 1)) 7]).pending =
      .writeByte (0x100000 + (Config.inCap - 1)) 7 :: [] ∧ Config.inCap - 1 < Config.inCap) ∧
    ((served [.writeByte 0xFFFFF 7]).pending = .writeByte 0xFFFFF 7 :: [] ∧ 0xFFFFF < 0x100000) ∧
    (served [.writeByte (0x100000 + Config.inCap) 7]).pending = .writeByte (0x100000 + Config.inCap) 7 :: [] ∧
    (∀ off ∈ [0x00, 0x04, 0x08, 0x10], (served [.writeWordBytes off 1 2 3 4]).pending =
      .writeWordBytes off 1 2 3 4 :: []) ∧
    (served [.writeRecInRtp header]).pending = .writeRecInRtp header :: [] ∧
    (served [.writeRecInAnc payload]).pending = .writeRecInAnc payload :: [] := by
  have h := inCap_bounds.1
  unfold Config.minCap at h
  exact ⟨rfl, rfl, rfl, rfl, ⟨rfl, by omega⟩, ⟨rfl, by omega⟩, ⟨rfl, by decide⟩, rfl, fun _ _ => rfl, rfl, rfl⟩

theorem reader_legal : reader.lengthsLegal ∧ reader.cursorLegal := by
  have h := inCap_bounds.1
  unfold Config.minCap at h
  refine ⟨⟨?_, Nat.zero_le _⟩, Nat.zero_le _⟩
  show 4 ≤ Config.inCap
  omega

theorem writer_legal : writer.lengthsLegal ∧ writer.cursorLegal := by
  have h := outCap_bounds.1
  unfold Config.minCap at h
  refine ⟨⟨Nat.zero_le _, ?_⟩, Nat.le_refl _⟩
  show 2 ≤ Config.outCap
  omega

/-- AddressMapReads: a legal state, and offsets at the ends of each range. -/
theorem witness_AddressMapReads :
    (reader.lengthsLegal ∧ reader.cursorLegal) ∧
    (∀ off ∈ [0, 1, 0x27, 0x28], off % 4 ≠ 0 ∨ 0x28 ≤ off ∨ off = 0) ∧
    (0 < Config.inCap ∧ Config.inCap - 1 < Config.inCap) ∧ (0 < Config.outCap ∧ Config.outCap - 1 < Config.outCap) ∧
    0xFFFFF < 0x100000 ∧ 0x200000 + Config.outCap ≤ 0x200000 + Config.outCap := by
  have h := inCap_bounds.1
  have g := outCap_bounds.1
  unfold Config.minCap at h g
  exact ⟨reader_legal, by decide, ⟨by omega, by omega⟩, ⟨by omega, by omega⟩, by decide, Nat.le_refl _⟩

theorem witness_PseudoInstructionSetsArgThenRuns :
    (served (AsmLine.withArg 5 (.wrbits 3)).accesses).pending = (AsmLine.withArg 5 (.wrbits 3)).accesses ++ [] := by
  decide

/-- EachCommandRaisesOnlyItsErrors, ResultsWrittenOnlyByTheirCommands: a command that fails. -/
theorem witness_EachCommandRaisesOnlyItsErrors :
    exec .getpos State.reset = .next (after .getpos State.reset) ∧
    statusErr (after .getpos State.reset).status ≠ 0 :=
  ⟨rfl, by decide⟩

/-- NoCommandWritesItsInputs, CommandsKeepTheCursorLegal. -/
theorem witness_NoCommandWritesItsInputs :
    exec (.wrbits 3) writer = .next (after (.wrbits 3) writer) ∧ writer.cursorLegal :=
  ⟨rfl, writer_legal.2⟩

theorem witness_NonStoringCommandsKeepEveryByte :
    ∀ i ∈ [Instr.cinitr, .rdbits 1, .getpos, .seek, .remain, .decrtp, .decanc, .verifycs .recIn],
      exec i reader = .next (after i reader) ∧
      (i = .cinitr ∨ (∃ w, i = .rdbits w) ∨ i = .getpos ∨ i = .seek ∨ i = .remain ∨ i = .decrtp ∨
        i = .decanc ∨ ∃ st, i = .verifycs st) := by
  intro i hi
  fin_cases hi <;> exact ⟨rfl, by simp⟩

/-- ResultsWrittenOnlyByTheirCommands: a command of each clause. -/
theorem witness_ResultsWrittenOnlyByTheirCommands :
    exec .cinitr writer = .next (after .cinitr writer) ∧ Instr.cinitr ≠ .decrtp ∧ Instr.cinitr ≠ .decanc :=
  ⟨rfl, by decide, by decide⟩

theorem witness_PacketCommandsKeepTheHostsState :
    exec .decrtp (input headerBytes) = .next (after .decrtp (input headerBytes)) ∧
    exec .decanc (input payloadBytes) = .next (after .decanc (input payloadBytes)) ∧
    exec .encrtp writer = .next (after .encrtp writer) ∧ exec .encanc writer = .next (after .encanc writer) ∧
    exec (.verifycs .recOut) writer = .next (after (.verifycs .recOut) writer) :=
  ⟨rfl, rfl, rfl, rfl, rfl⟩

/-- BytesBeyondInlenAreNeverRead: another byte right at INLEN. -/
theorem witness_BytesBeyondInlenAreNeverRead :
    ∀ k < reader.inlen, ({ reader with inbuf := reader.inbuf ++ [(4, 0x77)] } : State).inbufByte k = reader.inbufByte k := by
  decide

/-- RdbitsReadsTheNextBits: widths 1 and 32; no reader, one bit too few, and exactly to the end. -/
theorem witness_RdbitsReadsTheNextBits :
    (1 ≤ (1#6).toNat ∧ (32#6).toNat ≤ 32) ∧ writer.mode ≠ .read ∧
    (reader.mode = .read ∧ 8 * reader.inlen < ({ reader with pos := 1 } : State).pos + (32#6).toNat) ∧
    reader.pos + (32#6).toNat ≤ 8 * reader.inlen := by
  decide

/-- WrbitsWritesExactlyItsBits: no writer; a value one too large; no room; the largest value, with room. -/
theorem witness_WrbitsWritesExactlyItsBits :
    reader.mode ≠ .write ∧
    (writer.mode = .write ∧ 2 ^ (4#6).toNat ≤ ({ writer with arg := 16 } : State).arg.toNat) ∧
    (fullOut.mode = .write ∧ ({ fullOut with arg := 1 } : State).arg.toNat < 2 ^ (1#6).toNat ∧
      Config.outCap < max fullOut.outlen ((fullOut.pos + (1#6).toNat + 7) / 8)) ∧
    (({ writer with arg := 15 } : State).arg.toNat < 2 ^ (4#6).toNat ∧
      max writer.outlen ((writer.pos + (4#6).toNat + 7) / 8) ≤ Config.outCap) := by
  refine ⟨by decide, by decide, ⟨by decide, by decide, ?_⟩, by decide, ?_⟩
  · show Config.outCap < max Config.outCap ((8 * Config.outCap + 1 + 7) / 8)
    omega
  · have h := outCap_bounds.1
    unfold Config.minCap at h
    show max 2 ((16 + 4 + 7) / 8) ≤ Config.outCap
    omega

theorem witness_IllegalWidthsAreRejected : (0#6).toNat = 0 ∧ 33 ≤ (33#6).toNat ∧ 33 ≤ (63#6).toNat := by decide

/-- GetposReturnsThePosition, RemainCountsTheBitsLeft: IDLE, a reader and a writer. -/
theorem witness_GetposReturnsThePosition :
    State.reset.mode = .idle ∧ (reader.mode ≠ .idle ∧ reader.cursorLegal ∧ reader.lengthsLegal) ∧
    writer.mode ≠ .idle ∧ writer.cursorLegal ∧ writer.lengthsLegal :=
  ⟨rfl, ⟨by decide, reader_legal.2, reader_legal.1⟩, by decide, writer_legal.2, writer_legal.1⟩

/-- SeekMovesWithinTheBuffer: the end of the buffer and one past it, for a reader and a writer. -/
theorem witness_SeekMovesWithinTheBuffer :
    State.reset.mode = .idle ∧ reader.mode ≠ .idle ∧ writer.mode ≠ .idle ∧
    8 * reader.inlen < (33#32).toNat ∧ (32#32).toNat ≤ 8 * reader.inlen ∧
    8 * writer.outlen < (17#32).toNat ∧ (16#32).toNat ≤ 8 * writer.outlen := by
  decide

/-- CursorRoundTrip: V-WR-2 and V-WR-3, and an overwrite in place of an output of three bytes. -/
theorem witness_CursorRoundTrip :
    writeBitsF [] 0 3 5 fitsOut = .ok ([0xA0], 3) ∧
    writeAll fitsOut [(5, 3), (20, 7)] [] 0 = .ok ([0xA5, 0x00], 10) ∧
    writeAll fitsOut [(5, 3), (20, 7)] [0xFF, 0xFF, 0x77] 0 = .ok ([0xA5, 0x3F, 0x77], 10) := by
  decide

theorem witness_FieldRoundTrip : (1 ≤ 1 ∧ 1 < 2 ^ 1) ∧ 32 ≤ 32 ∧ 0xFFFFFFFF < 2 ^ 32 := by decide

theorem witness_ParityPairIsEvenParityAndItsInverse : 0 < 256 ∧ 255 < 256 := by decide

set_option maxRecDepth 20000 in
/-- ChecksumWordSumsNineBitWords, UserDataRoundTrip: no payload byte, and 255. -/
theorem witness_ChecksumWordSumsNineBitWords :
    ([] : List Byte).length ≤ 255 ∧ (List.replicate 255 (0xFF : Byte)).length ≤ 255 := by
  decide

theorem witness_UserDataRoundTrip :
    unpackUserData 1 ⟨[0x40, 0x00], 0⟩ = .ok ([0x00], 0, ⟨[0x40, 0x00], 10⟩) ∧
    unpackUserData 0 ⟨[], 0⟩ = .ok ([], 0, ⟨[], 0⟩) := by
  decide

/-- DecrtpReadsTheHeaderFields: past INLEN, one byte too few, and exactly 16 bytes. -/
theorem witness_DecrtpReadsTheHeaderFields :
    (input headerBytes).inlen < (17#32).toNat ∧
    ((1#32).toNat ≤ (input headerBytes).inlen ∧ (input headerBytes).inlen < (1#32).toNat + 16) ∧
    (input headerBytes).arg.toNat + 16 ≤ (input headerBytes).inlen := by
  decide

theorem header_fits : header.fits := by
  unfold RtpHeader.fits
  decide

/-- EncrtpWritesTheHeaderFields, EncrtpThenDecrtpGivesTheHeaderBack: past OUTLEN; a field one too large; no room;
and at OUTLEN with room. -/
theorem witness_EncrtpWritesTheHeaderFields :
    ({ State.reset with arg := 1 } : State).outlen < (1#32).toNat ∧
    (State.reset.arg.toNat ≤ State.reset.outlen ∧ ¬ ({ header with version := 4 } : RtpHeader).fits) ∧
    (fullOut.arg.toNat ≤ fullOut.outlen ∧ ({ fullOut with recInRtp := header } : State).recInRtp.fits ∧
      Config.outCap < fullOut.arg.toNat + 16) ∧
    (({ State.reset with recInRtp := header } : State).recInRtp.fits ∧ State.reset.arg.toNat + 16 ≤ Config.outCap) := by
  have h := outCap_bounds.1
  unfold Config.minCap at h
  refine ⟨by decide, ⟨by decide, ?_⟩, ⟨?_, header_fits, ?_⟩, header_fits, ?_⟩
  · unfold RtpHeader.fits
    decide
  · rw [fullOut_arg]
    exact Nat.le_refl _
  · rw [fullOut_arg]
    omega
  · show 0 + 16 ≤ Config.outCap
    omega

/-- DecancStoresTheDecodedPayload and the statements about decodeAncPacket: past INLEN; at INLEN, with no byte left;
one byte too few; and a whole payload of 20 bytes, its one message k = 0. -/
theorem witness_DecancStoresTheDecodedPayload :
    let f := bitsValue payloadBytes
    (input payloadBytes).inlen < (21#32).toNat ∧
    ((20#32).toNat ≤ (input payloadBytes).inlen ∧ ¬ (20#32).toNat + 4 ≤ (input payloadBytes).inlen) ∧
    (f 0 8 = 1 ∧ messageStart f 0 = 4 ∧ messageStart f 1 = 20) ∧
    ¬ messageStart f (f 0 8) ≤ (payloadBytes.take 19).length ∧
    (4 ≤ payloadBytes.length ∧ messageStart f (f 0 8) ≤ payloadBytes.length) := by
  decide

/-- The payload as DecancStoresTheDecodedPayload reads it, from INBUF at ARG. -/
theorem witness_DecancStoresTheDecodedPayload_at_ARG :
    let f := fun p n => fieldAt (input (0xEE :: payloadBytes)).inbufByte (8 * (1#32).toNat + p) n
    (1#32).toNat + 4 ≤ (input (0xEE :: payloadBytes)).inlen ∧
    (1#32).toNat + messageStart f (f 0 8) ≤ (input (0xEE :: payloadBytes)).inlen := by
  decide

/-- MismatchesNeverStopADecode: V-ANC-3, and the same with the count's parity, the first user-data word, the checksum
and the padding all changed. -/
theorem witness_MismatchesNeverStopADecode :
    let B := payloadBytes
    let C : List Byte :=
      [0x01, 0xC0, 0, 0, 0, 0x90, 0, 0x80, 0x98, 0x50, 0x18, 0x0E, 0x97, 0x5A, 0x60, 0x15, 0xFF, 0xAB, 0xCD, 0xEF]
    B.length = C.length ∧ bitsValue B 0 8 = bitsValue C 0 8 ∧
    (∀ k < bitsValue B 0 8, bitsValue B (8 * messageStart (bitsValue B) k + 54) 8 =
      bitsValue C (8 * messageStart (bitsValue B) k + 54) 8) ∧
    (decodeAncPacket B).isOk = true ∧ (decodeAncPacket C).isOk = true := by
  decide

/-- DecodedFieldsStandAtTheirOffsets, DecodeConsumesWholePackets, DecodeReadsOnlyWhatItConsumes,
DecodesNeverOverflow. -/
theorem witness_DecodedFieldsStandAtTheirOffsets :
    decodeAncPacket payloadBytes = .ok (⟨1, 3, 0, [⟨message, false, 0, false⟩]⟩, 20) ∧
    decodeRtpHeader headerBytes = .ok (header, 16) ∧
    decodeAncPacket (payloadBytes.take 19) = .error .truncatedInput ∧
    decodeRtpHeader (headerBytes.take 15) = .error .truncatedInput := by
  decide

theorem payload_encodable : payload.encodable := by
  unfold AncPacket.encodable AncMessage.encodable AncMessage.plainFits payload
  decide

/-- EncancPlacesTheEncodedPayload, EncancThenDecancGivesTheRecordBack: past OUTLEN; `lineNumber` one too large; no
room; and at OUTLEN with room. -/
theorem witness_EncancPlacesTheEncodedPayload :
    ({ State.reset with arg := 1 } : State).outlen < (1#32).toNat ∧
    (State.reset.arg.toNat ≤ State.reset.outlen ∧
      ¬ (⟨1, 3, 0, [{ message with lineNumber := 0x800 }]⟩ : AncPacket).encodable) ∧
    (fullOut.arg.toNat ≤ fullOut.outlen ∧ ({ fullOut with recInAnc := payload } : State).recInAnc.encodable ∧
      Config.outCap < fullOut.arg.toNat + payload.byteLength) ∧
    (({ State.reset with recInAnc := payload } : State).recInAnc.encodable ∧
      State.reset.arg.toNat + payload.byteLength ≤ Config.outCap) := by
  have h := outCap_bounds.1
  unfold Config.minCap at h
  have hn : payload.byteLength = 20 := by decide
  refine ⟨by decide, ⟨by decide, ?_⟩, ⟨?_, payload_encodable, ?_⟩, payload_encodable, ?_⟩
  · unfold AncPacket.encodable AncMessage.encodable AncMessage.plainFits
    decide
  · rw [fullOut_arg]
    exact Nat.le_refl _
  · rw [fullOut_arg]
    omega
  · rw [hn]
    show 0 + 20 ≤ Config.outCap
    omega

set_option maxRecDepth 20000 in
/-- EncodedPaddingIsZero: the payload's one message, k = 0, with its 26 padding bits from bit 32 + 72 + 30 on. -/
theorem witness_EncodedPaddingIsZero :
    encodeAncPacket payload = .ok payloadBytes ∧ 0 < payload.messages.length ∧
    32 + 8 * ((payload.messages.take 0).map (fun m => msgBytes m.userData.length)).sum + 72 + 10 * 3 ≤ 134 ∧
    134 < 32 + 8 * ((payload.messages.take 0).map (fun m => msgBytes m.userData.length)).sum + msgBits 3 := by
  decide

theorem witness_EmptyPayloadIsFourBytes :
    ((input [0, 0, 0, 0]).arg.toNat + 4 ≤ (input [0, 0, 0, 0]).inlen ∧
      (input [0, 0, 0, 0]).inbufByte (input [0, 0, 0, 0]).arg.toNat = 0) ∧
    (({ State.reset with recInAnc := ⟨0, 0, 0, []⟩ } : State).recInAnc.messages = [] ∧
      ({ State.reset with recInAnc := ⟨0, 0, 0, []⟩ } : State).recInAnc.encodable ∧
      State.reset.arg.toNat ≤ State.reset.outlen ∧ State.reset.arg.toNat + 4 ≤ Config.outCap) := by
  have h := outCap_bounds.1
  unfold Config.minCap at h
  refine ⟨by decide, rfl, ⟨by decide, by decide, by decide, fun m hm => absurd hm List.not_mem_nil⟩, by decide, ?_⟩
  · show 0 + 4 ≤ Config.outCap
    omega

/-- VerifycsChecksTheMessage: no such message in either store; a message that checks; one that does not. -/
theorem witness_VerifycsChecksTheMessage :
    State.reset.recOutAnc = none ∧
    ({ State.reset with recInAnc := payload, arg := 1 } : State).recInAnc.messages.length ≤ (1#32).toNat ∧
    ({ State.reset with recInAnc := payload } : State).recInAnc.messages[(0#32).toNat]? = some message ∧
    (message.userData.length ≤ 255 ∧ message.dataCount = message.userData.length ∧
      message.checksum = checksumWord message.did message.sdid message.userData.length message.userData) ∧
    ¬ (256 ≤ 255 ∧ (0 : Nat) = 0) ∧
    ¬ (0x365 = checksumWord message.did message.sdid message.userData.length message.userData) := by
  decide

set_option maxRecDepth 20000 in
/-- EncancThenDecancGivesTheRecordBack, EncrtpThenDecrtpGivesTheHeaderBack: inputs that are the outputs. -/
theorem witness_EncancThenDecancGivesTheRecordBack :
    ((input payloadBytes).arg.toNat + payload.byteLength ≤ (input payloadBytes).inlen ∧
      ∀ j < payload.byteLength, (input payloadBytes).inbufByte ((input payloadBytes).arg.toNat + j) =
        (after .encanc { State.reset with recInAnc := payload }).outbufByte (State.reset.arg.toNat + j)) ∧
    ((input headerBytes).arg.toNat + 16 ≤ (input headerBytes).inlen ∧
      ∀ j < 16, (input headerBytes).inbufByte ((input headerBytes).arg.toNat + j) =
        (after .encrtp { State.reset with recInRtp := header }).outbufByte (State.reset.arg.toNat + j)) := by
  decide

/-- EveryStepKeepsTheBlockLegal: a reader in the middle of its buffer. -/
theorem witness_EveryStepKeepsTheBlockLegal :
    reader.Legal ∧ step reader = .next reader := by
  have h := inCap_bounds.1
  unfold Config.minCap at h
  refine ⟨⟨reader_legal.2, reader_legal.1, ⟨by decide, by decide, ?_, ?_, ?_⟩, Or.inr ⟨.clear, by decide⟩, ?_, ?_⟩, rfl⟩
  · intro c hc
    have : c.1 < 4 := by
      revert c
      decide
    omega
  · intro c hc
    exact absurd hc List.not_mem_nil
  · intro k hk
    exact absurd hk (Nat.not_lt_zero k)
  · intro x hx
    cases hx
  · intro x hx
    cases hx

end Sys2Proof.Machine.Slice0
end

section
/-! SUPPORT. What a command can do, said once: it ends with an error that changes STATUS only, or its body writes
the one state that `Succeeds` gives it; from that, the frame of every command and of every host access. -/

namespace Sys2Proof.Machine

/-- The command `i`, run in `s`, succeeds: its body writes the state `u` with the advisories `a`, and the
checks of the command hold. -/
inductive Succeeds : Instr → State → State → Advisories → Prop
  | cinitr (s : State) : Succeeds .cinitr s { s with mode := .read, pos := 0 } .clear
  | cinitw (s : State) :
      Succeeds .cinitw s { s with mode := .write, pos := 0, outlen := 0, outDraws := s.outDraws + 1 } .clear
  | rdbits (w : BitVec 6) (s : State) (width : 1 ≤ w.toNat ∧ w.toNat ≤ 32) (reader : s.mode = .read)
      (inside : s.pos + w.toNat ≤ 8 * s.inlen) :
      Succeeds (.rdbits w) s
        { s with result := BitVec.ofNat 32 (bitsValue s.inBytes s.pos w.toNat), pos := s.pos + w.toNat } .clear
  | wrbits (w : BitVec 6) (s : State) (bytes : List Byte) (width : 1 ≤ w.toNat ∧ w.toNat ≤ 32)
      (writer : s.mode = .write)
      (written : writeBitsF s.outBytes s.pos w.toNat s.arg.toNat fitsOut = .ok (bytes, s.pos + w.toNat)) :
      Succeeds (.wrbits w) s { s.putOutput bytes with pos := s.pos + w.toNat } .clear
  | getpos (s : State) (cursor : s.mode ≠ .idle) :
      Succeeds .getpos s { s with result := BitVec.ofNat 32 s.pos } .clear
  | seek (s : State) (cursor : s.mode ≠ .idle) (inside : s.arg.toNat ≤ 8 * s.cursorLen) :
      Succeeds .seek s { s with pos := s.arg.toNat } .clear
  | remain (s : State) (cursor : s.mode ≠ .idle) :
      Succeeds .remain s { s with result := BitVec.ofNat 32 (8 * s.cursorLen - s.pos) } .clear
  | decrtp (s : State) (h : RtpHeader) (n : Nat) (start : s.arg.toNat ≤ s.inlen)
      (decoded : decodeRtpHeader (s.inBytes.drop s.arg.toNat) = .ok (h, n)) :
      Succeeds .decrtp s { s with recOutRtp := some h, result := BitVec.ofNat 32 n } .clear
  | encrtp (s : State) (bytes : List Byte) (start : s.arg.toNat ≤ s.outlen)
      (encoded : encodeRtpHeader s.recInRtp = .ok bytes)
      (room : s.arg.toNat + bytes.length ≤ Config.outCap) :
      Succeeds .encrtp s (s.commitPacket s.arg.toNat bytes) .clear
  | decanc (s : State) (p : DecodedPacket) (n : Nat) (start : s.arg.toNat ≤ s.inlen)
      (decoded : decodeAncPacket (s.inBytes.drop s.arg.toNat) = .ok (p, n)) :
      Succeeds .decanc s { s with recOutAnc := some p, result := BitVec.ofNat 32 n } p.advisories
  | encanc (s : State) (bytes : List Byte) (start : s.arg.toNat ≤ s.outlen)
      (encoded : encodeAncPacket s.recInAnc = .ok bytes)
      (room : s.arg.toNat + bytes.length ≤ Config.outCap) :
      Succeeds .encanc s (s.commitPacket s.arg.toNat bytes) .clear
  | verifycs (st : Store) (s : State) (m : AncMessage)
      (found : (s.storeMessages st)[s.arg.toNat]? = some m) :
      Succeeds (.verifycs st) s { s with result := BitVec.ofNat 32 (verifyMessage m).toNat }
        ⟨false, !verifyMessage m⟩

/-- All that a command can do (60_exceptions.md R250, R258). -/
theorem exec_cases (i : Instr) (s : State) :
    (∃ e, exec i s = .next (s.raise e)) ∨ ∃ u a, exec i s = .next (u.succeed a) ∧ Succeeds i s u a := by
  cases i with
  | cinitr => exact .inr ⟨_, _, rfl, .cinitr s⟩
  | cinitw => exact .inr ⟨_, _, rfl, .cinitw s⟩
  | rdbits w =>
    rcases execRdbits_cases w s with ⟨-, h⟩ | ⟨-, -, -, h⟩ | ⟨-, -, -, -, h⟩ | ⟨h1, h32, hm, hp, h⟩
    · exact .inl ⟨_, h⟩
    · exact .inl ⟨_, h⟩
    · exact .inl ⟨_, h⟩
    · exact .inr ⟨_, _, h, .rdbits w s ⟨h1, h32⟩ hm hp⟩
  | wrbits w =>
    rcases execWrbits_cases w s with
      ⟨-, h⟩ | ⟨-, -, -, h⟩ | ⟨-, -, -, -, h⟩ | ⟨-, -, -, -, -, h⟩ | ⟨h1, h32, hm, -, -, bytes, hb, h⟩
    · exact .inl ⟨_, h⟩
    · exact .inl ⟨_, h⟩
    · exact .inl ⟨_, h⟩
    · exact .inl ⟨_, h⟩
    · exact .inr ⟨_, _, h, .wrbits w s bytes ⟨h1, h32⟩ hm hb⟩
  | getpos =>
    rcases execGetpos_cases s with ⟨-, h⟩ | ⟨hm, h⟩
    · exact .inl ⟨_, h⟩
    · exact .inr ⟨_, _, h, .getpos s hm⟩
  | seek =>
    rcases execSeek_cases s with ⟨-, h⟩ | ⟨-, -, h⟩ | ⟨hm, hp, h⟩
    · exact .inl ⟨_, h⟩
    · exact .inl ⟨_, h⟩
    · exact .inr ⟨_, _, h, .seek s hm hp⟩
  | remain =>
    rcases execRemain_cases s with ⟨-, h⟩ | ⟨hm, h⟩
    · exact .inl ⟨_, h⟩
    · exact .inr ⟨_, _, h, .remain s hm⟩
  | decrtp =>
    rcases execDecrtp_cases s with ⟨-, h⟩ | ⟨e, -, -, h⟩ | ⟨hdr, n, hk, hd, h⟩
    · exact .inl ⟨_, h⟩
    · exact .inl ⟨_, h⟩
    · exact .inr ⟨_, _, h, .decrtp s hdr n hk hd⟩
  | encrtp =>
    rcases execEncrtp_cases s with ⟨-, h⟩ | ⟨e, -, -, h⟩ | ⟨b, -, -, -, h⟩ | ⟨b, hk, hb, hc, h⟩
    · exact .inl ⟨_, h⟩
    · exact .inl ⟨_, h⟩
    · exact .inl ⟨_, h⟩
    · exact .inr ⟨_, _, h, .encrtp s b hk hb hc⟩
  | decanc =>
    rcases execDecanc_cases s with ⟨-, h⟩ | ⟨e, -, -, h⟩ | ⟨p, n, hk, hd, h⟩
    · exact .inl ⟨_, h⟩
    · exact .inl ⟨_, h⟩
    · exact .inr ⟨_, _, h, .decanc s p n hk hd⟩
  | encanc =>
    rcases execEncanc_cases s with ⟨-, h⟩ | ⟨e, -, -, h⟩ | ⟨b, -, -, -, h⟩ | ⟨b, hk, hb, hc, h⟩
    · exact .inl ⟨_, h⟩
    · exact .inl ⟨_, h⟩
    · exact .inl ⟨_, h⟩
    · exact .inr ⟨_, _, h, .encanc s b hk hb hc⟩
  | verifycs st =>
    rcases execVerifycs_cases st s with ⟨-, h⟩ | ⟨m, hm, h⟩
    · exact .inl ⟨_, h⟩
    · exact .inr ⟨_, _, h, .verifycs st s m hm⟩

/-- The inversion of a command that gives the next state `t`. -/
theorem exec_next {i : Instr} {s t : State} (h : exec i s = .next t) :
    (∃ e, t = s.raise e) ∨ ∃ u a, t = u.succeed a ∧ Succeeds i s u a := by
  rcases exec_cases i s with ⟨e, he⟩ | ⟨u, a, hu, hs⟩
  · exact .inl ⟨e, Host.Outcome.next.inj (h.symm.trans he)⟩
  · exact .inr ⟨u, a, Host.Outcome.next.inj (h.symm.trans hu), hs⟩

/-- The two states agree in everything that a command takes from the host and in the model's own host side. -/
structure State.SameInputs (s t : State) : Prop where
  arg : t.arg = s.arg
  inlen : t.inlen = s.inlen
  inbuf : t.inbuf = s.inbuf
  recInRtp : t.recInRtp = s.recInRtp
  recInAnc : t.recInAnc = s.recInAnc
  pending : t.pending = s.pending
  readData : t.readData = s.readData
  resets : t.resets = s.resets

theorem State.SameInputs.inbufByte {s t : State} (h : s.SameInputs t) (k : Nat) :
    t.inbufByte k = s.inbufByte k := by
  unfold State.inbufByte
  rw [h.inbuf, h.resets]

theorem State.sameInputs_raise (s : State) (e : CmdError) : s.SameInputs (s.raise e) :=
  ⟨rfl, rfl, rfl, rfl, rfl, rfl, rfl, rfl⟩

theorem Succeeds.sameInputs {i : Instr} {s u : State} {a : Advisories} (h : Succeeds i s u a) :
    s.SameInputs (u.succeed a) := by
  cases h <;> exact ⟨rfl, rfl, rfl, rfl, rfl, rfl, rfl, rfl⟩

/-- The frame of every command (10_state.md R24, R28, R33, R36). -/
theorem exec_sameInputs {i : Instr} {s t : State} (h : exec i s = .next t) : s.SameInputs t := by
  rcases exec_next h with ⟨e, rfl⟩ | ⟨u, a, rfl, hs⟩
  · exact s.sameInputs_raise e
  · exact hs.sameInputs

/-- A write to CMD runs a command or raises an error. -/
theorem runCommand_cases (w : Word) (s : State) :
    (∃ e, runCommand w s = .next (s.raise e)) ∨ ∃ i, decode w = .ok i ∧ runCommand w s = exec i s := by
  unfold runCommand
  rcases decode w with e | i
  · exact .inl ⟨e, rfl⟩
  · exact .inr ⟨i, rfl, rfl⟩

theorem runCommand_of_decode {w : Word} {i : Instr} (h : decode w = .ok i) (s : State) :
    runCommand w s = exec i s := by
  unfold runCommand
  rw [h]

/-- Every word written to CMD gives a next state, with the frame of a command. -/
theorem runCommand_total (w : Word) (s : State) : ∃ t, runCommand w s = .next t ∧ s.SameInputs t := by
  rcases runCommand_cases w s with ⟨e, h⟩ | ⟨i, -, h⟩
  · exact ⟨_, h, s.sameInputs_raise e⟩
  · rcases exec_cases i s with ⟨e, he⟩ | ⟨u, a, hu, -⟩
    · exact ⟨_, h.trans he, exec_sameInputs he⟩
    · exact ⟨_, h.trans hu, exec_sameInputs hu⟩

theorem serveWord_cmd (w : Word) (s : State) : serveWord 0 w s = runCommand w s := if_pos rfl

theorem serveWord_of_ne {off : Nat} (h : off ≠ 0) (v : Word) (s : State) :
    serveWord off v s = .next (s.writeRegister off v) := if_neg h

/-- All that a host write of a register other than CMD can do (20_memory.md R60). -/
theorem State.writeRegister_cases (s : State) (off : Nat) (v : Word) :
    (off = 0x04 ∧ s.writeRegister off v = { s with arg := v }) ∨
      (off = 0x10 ∧ s.writeRegister off v = s.writeInlen v.toNat) ∨ s.writeRegister off v = s := by
  unfold State.writeRegister
  split
  · exact .inl ⟨rfl, rfl⟩
  · exact .inr (.inl ⟨rfl, rfl⟩)
  · exact .inr (.inr rfl)

/-- All that a host write of one byte can do (20_memory.md R60). -/
theorem State.writeWindow_cases (s : State) (off : Nat) (b : Byte) :
    (∃ k < Config.inCap, s.writeWindow off b = { s with inbuf := s.inbuf.write k b }) ∨
      s.writeWindow off b = s := by
  unfold State.writeWindow inbufIndex
  by_cases h : inbufBase ≤ off ∧ off < outbufBase ∧ fitsIn (off - inbufBase + 1) = true
  · rw [if_pos h]
    obtain ⟨-, -, hfit⟩ := h
    exact .inl ⟨off - inbufBase, (fitsIn_iff _).mp hfit, rfl⟩
  · rw [if_neg h]
    exact .inr rfl

/-- Every register write gives a next state and leaves the accesses to come. -/
theorem serveWord_total (off : Nat) (v : Word) (s : State) :
    ∃ t, serveWord off v s = .next t ∧ t.pending = s.pending := by
  by_cases h : off = 0
  · subst h
    obtain ⟨t, ht, hsame⟩ := runCommand_total v s
    exact ⟨t, (serveWord_cmd v s).trans ht, hsame.pending⟩
  · refine ⟨_, serveWord_of_ne h v s, ?_⟩
    rcases s.writeRegister_cases off v with ⟨-, h⟩ | ⟨-, h⟩ | h <;> rw [h]
    exact s.writeInlen_pending _

/-- Every access gives a next state and leaves the accesses to come. -/
theorem serve_total (a : HostAccess) (s : State) : ∃ t, serve a s = .next t ∧ t.pending = s.pending := by
  cases a with
  | writeWord off v => exact serveWord_total off v s
  | writeWordBytes off b0 b1 b2 b3 => exact serveWord_total off _ s
  | writeByte off b =>
    refine ⟨_, rfl, ?_⟩
    rcases s.writeWindow_cases off b with ⟨k, -, h⟩ | h <;> rw [h]
  | readWord off => exact ⟨_, rfl, rfl⟩
  | readByte off => exact ⟨_, rfl, rfl⟩
  | writeRecInRtp h => exact ⟨_, rfl, rfl⟩
  | writeRecInAnc p => exact ⟨_, rfl, rfl⟩
  | reset => exact ⟨_, rfl, s.resetEvent_pending⟩

theorem step_of_idle {s : State} (h : s.pending = []) : step s = .next s := by
  unfold step stepPending
  rw [h]

theorem step_of_pending {s : State} {a : HostAccess} {rest : List HostAccess} (h : s.pending = a :: rest) :
    step s = serve a { s with pending := rest } := by
  unfold step stepPending
  rw [h]

end Sys2Proof.Machine
end

section
/-! SUPPORT. The invariants of the block: the cursor invariant, the bounds of the lengths, the form of the memories
and the shape of RecOut, each kept by every successful command, and all of them kept by every host access. -/

namespace Sys2Proof.Machine

/-! ### The cursor -/

/-- The cursor invariant says that the cursor is inside its buffer, an idle one at 0 (10_state.md R30). -/
theorem State.cursorLegal_iff (s : State) : s.cursorLegal ↔ s.pos ≤ 8 * s.cursorLen := by
  unfold State.cursorLegal State.cursorLen
  cases s.mode with
  | idle => exact Nat.le_zero.symm
  | read => exact Iff.rfl
  | write => exact Iff.rfl

theorem State.cursorLegal_of_read {s : State} (hm : s.mode = .read) (h : s.pos ≤ 8 * s.inlen) :
    s.cursorLegal := by
  unfold State.cursorLegal
  rw [hm]
  exact h

theorem State.cursorLegal_of_write {s : State} (hm : s.mode = .write) (h : s.pos ≤ 8 * s.outlen) :
    s.cursorLegal := by
  unfold State.cursorLegal
  rw [hm]
  exact h

/-- A packet encode keeps the cursor legal: a writer goes to IDLE, and no other cursor looks at OUTBUF. -/
theorem State.cursorLegal_commitPacket {s : State} (k : Nat) (bytes : List Byte) (h : s.cursorLegal) :
    (s.commitPacket k bytes).cursorLegal := by
  cases hm : s.mode with
  | idle => simpa [State.cursorLegal, hm] using h
  | read => simpa [State.cursorLegal, hm] using h
  | write => simp [State.cursorLegal, hm]

/-- A host write of INLEN keeps the cursor legal: a reader goes to IDLE, and no other cursor looks at INBUF
(10_state.md R28). -/
theorem State.cursorLegal_writeInlen {s : State} (v : Nat) (h : s.cursorLegal) :
    (s.writeInlen v).cursorLegal := by
  cases hm : s.mode with
  | idle => simpa [State.cursorLegal, hm] using h
  | read => simp [State.cursorLegal, hm]
  | write => simpa [State.cursorLegal, hm] using h

theorem Succeeds.cursorLegal {i : Instr} {s u : State} {a : Advisories} (h : Succeeds i s u a)
    (hs : s.cursorLegal) : u.cursorLegal := by
  cases h with
  | cinitr => exact Nat.zero_le _
  | cinitw => exact Nat.zero_le _
  | rdbits w _ width reader inside => exact State.cursorLegal_of_read reader inside
  | wrbits w _ bytes width writer written =>
    obtain ⟨-, -, hl, -, -⟩ := writeBitsF_ok _ _ _ _ _ _ _ written
    have inside : s.pos + w.toNat ≤ 8 * bytes.length :=
      hl ▸ (le_grownLength s.outBytes.length s.pos w.toNat).2
    exact State.cursorLegal_of_write writer inside
  | seek _ cursor inside => exact (State.cursorLegal_iff _).mpr inside
  | encrtp => exact State.cursorLegal_commitPacket _ _ hs
  | encanc => exact State.cursorLegal_commitPacket _ _ hs
  | getpos => exact hs
  | remain => exact hs
  | decrtp => exact hs
  | decanc => exact hs
  | verifycs => exact hs

/-! ### The lengths and the memories -/

/-- A successful WRBITS leaves an output within the capacity. -/
theorem length_le_outCap_of_writeBitsF {B bytes : List Byte} {p p' n v : Nat}
    (h : writeBitsF B p n v fitsOut = .ok (bytes, p')) : bytes.length ≤ Config.outCap := by
  obtain ⟨-, -, hl, hroom, -⟩ := writeBitsF_ok _ _ _ _ _ _ _ h
  rw [hl]
  exact (fitsOut_iff _).mp hroom

theorem Succeeds.lengthsLegal {i : Instr} {s u : State} {a : Advisories} (h : Succeeds i s u a)
    (hs : s.lengthsLegal) : u.lengthsLegal := by
  obtain ⟨hin, hout⟩ := hs
  cases h with
  | cinitw => exact ⟨hin, Nat.zero_le _⟩
  | wrbits w _ bytes width writer written => exact ⟨hin, length_le_outCap_of_writeBitsF written⟩
  | encrtp _ bytes start encoded room => exact ⟨hin, room⟩
  | encanc _ bytes start encoded room => exact ⟨hin, room⟩
  | _ => exact ⟨hin, hout⟩

/-- Writing consecutive bytes within the capacity, from an index inside the written output on, keeps OUTBUF
canonical, within its capacity, and written up to the end of those bytes. -/
theorem State.memoriesLegal_writeBytes {s u : State} {k : Nat} {bytes : List Byte} (hs : s.memoriesLegal)
    (start : k ≤ s.outlen) (room : k + bytes.length ≤ Config.outCap) (hin : u.inbuf = s.inbuf)
    (hbuf : u.outbuf = s.outbuf.writeBytes k bytes) (hlen : u.outlen = k + bytes.length) :
    u.memoriesLegal := by
  obtain ⟨wfin, wfout, capin, capout, written⟩ := hs
  unfold State.memoriesLegal
  rw [hin, hbuf, hlen]
  refine ⟨wfin, Memory.wf_writeBytes _ _ _ wfout, capin, fun c hc => ?_, fun x hx => ?_⟩
  · rcases Memory.mem_writeBytes _ _ _ c hc with ⟨-, h⟩ | h
    · omega
    · exact capout c h
  · rw [Memory.read?_writeBytes]
    by_cases h : k ≤ x
    · rw [if_pos ⟨h, hx⟩, List.getElem?_eq_getElem (by omega)]
      rfl
    · rw [if_neg (by omega)]
      exact written x (by omega)

theorem State.memoriesLegal_commitPacket {s : State} {k : Nat} {bytes : List Byte} (hs : s.memoriesLegal)
    (start : k ≤ s.outlen) (room : k + bytes.length ≤ Config.outCap) :
    (s.commitPacket k bytes).memoriesLegal :=
  State.memoriesLegal_writeBytes hs start room rfl rfl rfl

theorem Succeeds.memoriesLegal {i : Instr} {s u : State} {a : Advisories} (h : Succeeds i s u a)
    (hs : s.memoriesLegal) : u.memoriesLegal := by
  cases h with
  | cinitw =>
    obtain ⟨wfin, wfout, capin, capout, -⟩ := hs
    exact ⟨wfin, wfout, capin, capout, fun k hk => absurd hk (Nat.not_lt_zero k)⟩
  | wrbits w _ bytes width writer written =>
    refine State.memoriesLegal_writeBytes (k := 0) hs (Nat.zero_le _) ?_ rfl rfl (Nat.zero_add _).symm
    rw [Nat.zero_add]
    exact length_le_outCap_of_writeBitsF written
  | encrtp _ bytes start encoded room => exact State.memoriesLegal_commitPacket hs start room
  | encanc _ bytes start encoded room => exact State.memoriesLegal_commitPacket hs start room
  | _ => exact hs

/-- A host write of a byte of INBUF keeps the memories legal. -/
theorem State.memoriesLegal_write_inbuf {s : State} {k : Nat} (b : Byte) (hk : k < Config.inCap)
    (hs : s.memoriesLegal) : ({ s with inbuf := s.inbuf.write k b } : State).memoriesLegal := by
  obtain ⟨wfin, wfout, capin, capout, written⟩ := hs
  refine ⟨Memory.wf_write _ _ _ wfin, wfout, fun c hc => ?_, capout, written⟩
  rcases Memory.mem_write _ _ _ c hc with rfl | h
  · exact hk
  · exact capin c h

/-! ### RecOut -/

@[simp] theorem length_udwsAt (bytes : List Byte) (p d : Nat) : (udwsAt bytes p d).length = d := by
  simp [udwsAt]

/-- A received message is legal, whatever the bits it was read from (10_state.md R40, R42). -/
theorem receivedAt_legal (bytes : List Byte) (a : Nat) : (receivedAt bytes a).legal := by
  have plain : (receivedAt bytes a).msg.plainFits :=
    ⟨bitsValue_lt bytes a 1, bitsValue_lt bytes (a + 1) 11, bitsValue_lt bytes (a + 12) 12,
      bitsValue_lt bytes (a + 24) 1, bitsValue_lt bytes (a + 25) 7, bitsValue_lt bytes (a + 32) 10,
      bitsValue_lt bytes (a + 42) 10⟩
  have count : (receivedAt bytes a).msg.userData.length = (receivedAt bytes a).msg.dataCount := by
    simp [receivedAt, AncMessage.received, messageAt]
  have bad : (receivedAt bytes a).advUdwParity ≤ (receivedAt bytes a).msg.dataCount := by
    have := List.length_filter_le udwMismatch (udwsAt bytes (a + 62) (bitsValue bytes (a + 54) 8))
    rwa [length_udwsAt] at this
  exact ⟨plain, bitsValue_lt bytes (a + 52) 2, bitsValue_lt bytes (a + 54) 8, bitsValue_lt bytes _ 10, count,
    bne_iff_ne, bad, rfl⟩

@[simp] theorem length_receivedFrom (bytes : List Byte) (n a : Nat) : (receivedFrom bytes n a).length = n := by
  induction n generalizing a with
  | zero => rfl
  | succ n ih => rw [receivedFrom, List.length_cons, ih]

theorem receivedFrom_legal (bytes : List Byte) (n a : Nat) : ∀ m ∈ receivedFrom bytes n a, m.legal := by
  induction n generalizing a with
  | zero => exact fun m hm => absurd hm List.not_mem_nil
  | succ n ih => exact List.forall_mem_cons.mpr ⟨receivedAt_legal bytes a, ih _⟩

/-- A decoded packet is legal (44_packet_schemas.md R219). -/
theorem decodeAncPacket_legal {bytes : List Byte} {p : DecodedPacket} {n : Nat}
    (h : decodeAncPacket bytes = .ok (p, n)) : p.legal := by
  rcases decodeAncPacket_cases bytes with ⟨-, hr⟩ | ⟨-, -, hr⟩ <;> rw [hr] at h
  · cases h
  · cases h
    exact ⟨bitsValue_lt bytes 0 8, bitsValue_lt bytes 8 2, bitsValue_lt bytes 10 22,
      length_receivedFrom _ _ _, receivedFrom_legal _ _ _⟩

/-- Every field of a decoded RTP header fits (44_packet_schemas.md R219). -/
theorem decodeRtpHeader_fits {bytes : List Byte} {h : RtpHeader} {n : Nat}
    (hd : decodeRtpHeader bytes = .ok (h, n)) : h.fits := by
  rcases decodeRtpHeader_cases bytes with ⟨-, hr⟩ | ⟨-, hr⟩ <;> rw [hr] at hd
  · cases hd
  · cases hd
    simp only [RtpHeader.fits, rtpSchema, RtpHeader.values, List.map_cons, List.map_nil, List.zip_cons_cons,
      List.zip_nil_left, List.forall_mem_cons, bitsValue_lt, true_and]
    exact fun x hx => absurd hx List.not_mem_nil

theorem Succeeds.recOutLegal {i : Instr} {s u : State} {a : Advisories} (h : Succeeds i s u a)
    (hs : s.recOutLegal) : u.recOutLegal := by
  obtain ⟨hrtp, hanc⟩ := hs
  cases h with
  | decrtp _ hdr n start decoded =>
    refine ⟨fun x hx => ?_, hanc⟩
    cases hx
    exact decodeRtpHeader_fits decoded
  | decanc _ p n start decoded =>
    refine ⟨hrtp, fun x hx => ?_⟩
    cases hx
    exact decodeAncPacket_legal decoded
  | _ => exact ⟨hrtp, hanc⟩

/-! ### The block -/

/-- An error changes STATUS only, to a legal word (60_exceptions.md R258). -/
theorem State.Legal.raise {s : State} (h : s.Legal) (e : CmdError) : (s.raise e).Legal := by
  obtain ⟨cur, len, mem, -, out⟩ := h
  exact ⟨cur, len, mem, .inl ⟨e, rfl⟩, out⟩

theorem Succeeds.legal {i : Instr} {s u : State} {a : Advisories} (h : Succeeds i s u a) (hs : s.Legal) :
    (u.succeed a).Legal := by
  obtain ⟨cur, len, mem, -, out⟩ := hs
  exact ⟨h.cursorLegal cur, h.lengthsLegal len, h.memoriesLegal mem, .inr ⟨a, rfl⟩, h.recOutLegal out⟩

theorem exec_legal {i : Instr} {s t : State} (hs : s.Legal) (h : exec i s = .next t) : t.Legal := by
  rcases exec_next h with ⟨e, rfl⟩ | ⟨u, a, rfl, hu⟩
  · exact hs.raise e
  · exact hu.legal hs

theorem runCommand_legal {w : Word} {s t : State} (hs : s.Legal) (h : runCommand w s = .next t) : t.Legal := by
  rcases runCommand_cases w s with ⟨e, he⟩ | ⟨i, -, hi⟩
  · rw [he] at h
    cases h
    exact hs.raise e
  · exact exec_legal hs (hi.symm.trans h)

theorem State.Legal.writeInlen {s : State} (h : s.Legal) (v : Nat) : (s.writeInlen v).Legal := by
  obtain ⟨cur, ⟨-, hout⟩, mem, status, out⟩ := h
  refine ⟨State.cursorLegal_writeInlen v cur, ⟨?_, hout⟩, mem, status, out⟩
  rw [State.writeInlen_inlen, clampInlen]
  exact Nat.min_le_right _ _

theorem serveWord_legal {off : Nat} {v : Word} {s t : State} (hs : s.Legal)
    (h : serveWord off v s = .next t) : t.Legal := by
  by_cases h0 : off = 0
  · subst h0
    exact runCommand_legal hs h
  · rw [serveWord_of_ne h0] at h
    cases h
    rcases s.writeRegister_cases off v with ⟨-, hw⟩ | ⟨-, hw⟩ | hw <;> rw [hw]
    · exact hs
    · exact hs.writeInlen _
    · exact hs

theorem State.Legal.writeWindow {s : State} (h : s.Legal) (off : Nat) (b : Byte) :
    (s.writeWindow off b).Legal := by
  rcases s.writeWindow_cases off b with ⟨k, hk, hw⟩ | hw <;> rw [hw]
  · obtain ⟨cur, len, mem, status, out⟩ := h
    exact ⟨cur, len, State.memoriesLegal_write_inbuf b hk mem, status, out⟩
  · exact h

/-- A state whose registers, buffers and RecOut are those of the reset is legal, whatever RecIn, the queue and the
draw counters hold. -/
theorem State.legal_of_atReset {s : State} (hpos : s.pos = 0) (hin : s.inlen = 0)
    (hout : s.outlen = 0) (hinbuf : s.inbuf = []) (houtbuf : s.outbuf = []) (hstatus : s.status = 0)
    (hrtp : s.recOutRtp = none) (hanc : s.recOutAnc = none) : s.Legal := by
  have cur : s.cursorLegal := (State.cursorLegal_iff s).mpr (hpos ▸ Nat.zero_le _)
  have len : s.lengthsLegal := ⟨hin ▸ Nat.zero_le _, hout ▸ Nat.zero_le _⟩
  have mem : s.memoriesLegal := by
    unfold State.memoriesLegal
    rw [hinbuf, houtbuf, hout]
    exact ⟨rfl, rfl, fun c hc => absurd hc List.not_mem_nil, fun c hc => absurd hc List.not_mem_nil,
      fun k hk => absurd hk (Nat.not_lt_zero k)⟩
  have out : s.recOutLegal := by
    unfold State.recOutLegal
    rw [hrtp, hanc]
    exact ⟨nofun, nofun⟩
  exact ⟨cur, len, mem, .inr ⟨.clear, hstatus.trans statusWord_clear.symm⟩, out⟩

theorem State.reset_legal : State.reset.Legal :=
  State.legal_of_atReset rfl rfl rfl rfl rfl rfl rfl rfl

theorem State.resetEvent_legal (s : State) : s.resetEvent.Legal :=
  State.legal_of_atReset rfl rfl rfl rfl rfl rfl rfl rfl

/-- Every access of the host keeps the block legal. -/
theorem serve_legal {a : HostAccess} {s t : State} (hs : s.Legal) (h : serve a s = .next t) : t.Legal := by
  cases a with
  | writeWord off v => exact serveWord_legal hs h
  | writeWordBytes off b0 b1 b2 b3 => exact serveWord_legal hs h
  | writeByte off b =>
    cases h
    exact hs.writeWindow off b
  | readWord off =>
    cases h
    exact hs
  | readByte off =>
    cases h
    exact hs
  | writeRecInRtp hdr =>
    cases h
    exact hs
  | writeRecInAnc p =>
    cases h
    exact hs
  | reset =>
    cases h
    exact s.resetEvent_legal

end Sys2Proof.Machine
end

section
/-! SUPPORT. Commands read INBUF only through `State.inBytes`, its first INLEN bytes. -/

namespace Sys2Proof.Machine

/-- The state with other INBUF cells. -/
def State.setInbuf (s : State) (m : Memory) : State := { s with inbuf := m }

/-- The effect of a body run with other INBUF cells. -/
def Effect.setInbuf (r : Effect) (m : Memory) : Effect := r.map (fun x => (x.1.setInbuf m, x.2))

/-- The input of a command is the same when the bytes below INLEN are. -/
theorem State.inBytes_congr {s t : State} (hlen : t.inlen = s.inlen)
    (h : ∀ k < s.inlen, t.inbufByte k = s.inbufByte k) : t.inBytes = s.inBytes := by
  unfold State.inBytes
  rw [hlen]
  exact List.map_congr_left fun k hk => h k (List.mem_range.mp hk)

/-- Commands whose bodies have the same effect but for INBUF end alike. -/
theorem State.complete_setInbuf {s : State} {m : Memory} {r r' : Effect} (h : r' = r.setInbuf m) :
    ∃ t, s.complete r = .next t ∧ (s.setInbuf m).complete r' = .next (t.setInbuf m) := by
  subst h
  rcases r with e | ⟨u, a⟩
  · exact ⟨s.raise e, rfl, rfl⟩
  · exact ⟨u.succeed a, rfl, rfl⟩

/-- One check or read of a body, the same on both sides, goes before what follows it. -/
theorem Effect.bind_setInbuf {α : Type} {m : Memory} {x x' : Except CmdError α} {f f' : α → Effect}
    (hx : x' = x) (hf : ∀ v, f' v = Effect.setInbuf (f v) m) : (x' >>= f') = Effect.setInbuf (x >>= f) m := by
  subst hx
  rcases x' with e | v
  · rfl
  · exact hf v

/-- The placing of an encode's bytes does not look at INBUF. -/
theorem State.placePacket_setInbuf (s : State) (m : Memory) (r : Except CmdError (List Byte)) :
    (s.setInbuf m).placePacket r = Effect.setInbuf (s.placePacket r) m :=
  Effect.bind_setInbuf rfl fun k => Effect.bind_setInbuf rfl fun bytes => by
    split <;> rfl

/-- The packet a decode reads is the same when the bytes below INLEN are. -/
theorem State.inPacketOperand_setInbuf {s : State} {m : Memory} (h : (s.setInbuf m).inBytes = s.inBytes) :
    (s.setInbuf m).inPacketOperand = s.inPacketOperand := by
  unfold State.inPacketOperand
  rw [h]
  rfl

/-- A command run with other bytes at INLEN and above does the same (10_state.md R33). -/
theorem exec_setInbuf (i : Instr) {s : State} {m : Memory} (h : (s.setInbuf m).inBytes = s.inBytes) :
    ∃ t, exec i s = .next t ∧ exec i (s.setInbuf m) = .next (t.setInbuf m) := by
  cases i with
  | cinitr => exact ⟨_, rfl, rfl⟩
  | cinitw => exact ⟨_, rfl, rfl⟩
  | rdbits w =>
    exact State.complete_setInbuf <| Effect.bind_setInbuf rfl fun n => Effect.bind_setInbuf rfl fun _ =>
      Effect.bind_setInbuf (congrArg (fun B => readBitsF B s.pos n) h) fun _ => rfl
  | wrbits w =>
    exact State.complete_setInbuf <| Effect.bind_setInbuf rfl fun n => Effect.bind_setInbuf rfl fun _ =>
      Effect.bind_setInbuf rfl fun _ => rfl
  | getpos => exact State.complete_setInbuf <| Effect.bind_setInbuf rfl fun _ => rfl
  | seek =>
    exact State.complete_setInbuf <| Effect.bind_setInbuf rfl fun _ => Effect.bind_setInbuf rfl fun _ => rfl
  | remain => exact State.complete_setInbuf <| Effect.bind_setInbuf rfl fun _ => rfl
  | decrtp =>
    exact State.complete_setInbuf <| Effect.bind_setInbuf (State.inPacketOperand_setInbuf h) fun _ =>
      Effect.bind_setInbuf rfl fun _ => rfl
  | encrtp => exact State.complete_setInbuf (s.placePacket_setInbuf m _)
  | decanc =>
    exact State.complete_setInbuf <| Effect.bind_setInbuf (State.inPacketOperand_setInbuf h) fun _ =>
      Effect.bind_setInbuf rfl fun _ => rfl
  | encanc => exact State.complete_setInbuf (s.placePacket_setInbuf m _)
  | verifycs st => exact State.complete_setInbuf <| Effect.bind_setInbuf rfl fun _ => rfl

end Sys2Proof.Machine
end

section
/-! SUPPORT. The proofs of the statements about the state (10_state.md). -/

namespace Sys2Proof.Machine

/-- Settles O50: the invariant is kept by each access (`serve_legal`), and no invariant looks at the queue. -/
theorem everyStepKeepsTheBlockLegal : Obligations.EveryStepKeepsTheBlockLegal := by
  intro s t hs h
  rcases hp : s.pending with _ | ⟨a, rest⟩
  · rw [step_of_idle hp] at h
    cases h
    exact hs
  · rw [step_of_pending hp] at h
    exact serve_legal (s := { s with pending := rest }) hs h

/-- Settles O51. -/
theorem resetIsLegal : Obligations.ResetIsLegal := State.reset_legal

/-- Settles O52, by what a successful command writes. -/
theorem commandsKeepTheCursorLegal : Obligations.CommandsKeepTheCursorLegal := by
  intro i s t hs h
  rcases exec_next h with ⟨e, rfl⟩ | ⟨u, a, rfl, hu⟩
  · exact hs
  · exact hu.cursorLegal hs

/-- Settles O16, by the frame of every command. -/
theorem noCommandWritesItsInputs : Obligations.NoCommandWritesItsInputs := by
  intro i s t h
  have hsame := exec_sameInputs h
  exact ⟨hsame.arg, hsame.inlen, hsame.inbuf, hsame.inbufByte, hsame.recInRtp, hsame.recInAnc, hsame.pending,
    hsame.readData, hsame.resets⟩

/-- Settles O18: a success has ERR = 0, and what it writes depends on the command. -/
theorem resultsWrittenOnlyByTheirCommands : Obligations.ResultsWrittenOnlyByTheirCommands := by
  intro i s t h
  rcases exec_next h with ⟨e, rfl⟩ | ⟨u, a, rfl, hu⟩
  · exact ⟨fun _ => rfl, fun _ => rfl, fun _ => rfl⟩
  · rw [State.succeed_status, statusErr_statusWord]
    cases hu <;> simp

/-- Settles O21. -/
theorem bytesBeyondInlenAreNeverRead : Obligations.BytesBeyondInlenAreNeverRead :=
  fun i _ _ h => exec_setInbuf i (State.inBytes_congr rfl h)

/-- Settles O6. -/
theorem stepRunsTheDecodedCommand : Obligations.StepRunsTheDecodedCommand := by
  intro s w rest
  refine ⟨fun hp => ?_, fun i hi hp => ?_, fun i b0 b1 b2 b3 hi hw hp => ?_, rfl⟩
  · exact (step_of_pending hp).trans (serveWord_cmd w _)
  · exact ((step_of_pending hp).trans (serveWord_cmd w _)).trans (runCommand_of_decode hi _)
  · subst hw
    exact ((step_of_pending hp).trans (serveWord_cmd _ _)).trans (runCommand_of_decode hi _)

/-- Settles O7. -/
theorem stepServesTheOldestAccess : Obligations.StepServesTheOldestAccess := by
  intro s
  rcases hp : s.pending with _ | ⟨a, rest⟩
  · exact ⟨s, step_of_idle hp, hp, fun _ => rfl, nofun⟩
  · obtain ⟨t, ht, hq⟩ := serve_total a { s with pending := rest }
    refine ⟨t, (step_of_pending hp).trans ht, hq, nofun, fun b tail h => ?_⟩
    cases h
    exact step_of_pending hp

/-- Settles O8, by the clamp of a host write and the frame of every command. -/
theorem inlenWriteClampsAndStopsAReader : Obligations.InlenWriteClampsAndStopsAReader := by
  refine ⟨fun s v => ?_, fun s t w h => ?_⟩
  · rw [serveWord_of_ne (by decide), ← clampInlen]
    rfl
  · obtain ⟨u, hu, hsame⟩ := runCommand_total w s
    cases h.symm.trans hu
    exact hsame.inlen

/-- The host reads the capacities as they are: both fit a 32-bit register. -/
theorem State.readRegister_capacities (s : State) :
    (s.readRegister 0x20).toNat = Config.inCap ∧ (s.readRegister 0x24).toNat = Config.outCap := by
  have hin := inCap_bounds.2
  have hout := outCap_bounds.2
  unfold Config.maxCap at hin hout
  exact ⟨Nat.mod_eq_of_lt (by omega), Nat.mod_eq_of_lt (by omega)⟩

/-- Settles O12. -/
theorem resetEventGivesTheResetValues : Obligations.ResetEventGivesTheResetValues :=
  ⟨⟨rfl, rfl, rfl, rfl, rfl, rfl, rfl, rfl, rfl, State.readRegister_capacities _⟩,
    fun s => ⟨s.resetEvent, rfl, rfl, rfl, rfl, rfl, rfl, rfl, rfl, rfl, rfl,
      State.readRegister_capacities _⟩⟩

end Sys2Proof.Machine
end

section
/-! SUPPORT. The address map (20_memory.md R61 to R63): which offsets lie in which window, what the host reads in a
window and in a register, and what one access of the host other than a command does (R60). -/

namespace Sys2Proof.Machine

/-! ### The windows -/

/-- The INBUF window is exactly the offsets from 0x100000 on of IN_CAP bytes: IN_CAP leaves the OUTBUF window free. -/
theorem inbufIndex_eq_some_iff {off k : Nat} :
    inbufIndex off = some k ↔ off = 0x100000 + k ∧ k < Config.inCap := by
  have hcap := inCap_bounds.2
  unfold Config.maxCap at hcap
  simp only [inbufIndex, fitsIn_iff, inbufBase, outbufBase, Option.ite_none_right_eq_some, Option.some.injEq]
  omega

/-- The OUTBUF window is exactly the offsets from 0x200000 on of OUT_CAP bytes. -/
theorem outbufIndex_eq_some_iff {off k : Nat} :
    outbufIndex off = some k ↔ off = 0x200000 + k ∧ k < Config.outCap := by
  simp only [outbufIndex, fitsOut_iff, outbufBase, Option.ite_none_right_eq_some, Option.some.injEq]
  omega

theorem inbufIndex_eq_none {off : Nat} (h : off < 0x100000 ∨ 0x100000 + Config.inCap ≤ off) :
    inbufIndex off = none :=
  Option.eq_none_iff_forall_ne_some.mpr fun k hk => by
    obtain ⟨rfl, hlt⟩ := inbufIndex_eq_some_iff.mp hk
    omega

theorem outbufIndex_eq_none {off : Nat} (h : off < 0x200000 ∨ 0x200000 + Config.outCap ≤ off) :
    outbufIndex off = none :=
  Option.eq_none_iff_forall_ne_some.mpr fun k hk => by
    obtain ⟨rfl, hlt⟩ := outbufIndex_eq_some_iff.mp hk
    omega

theorem State.readWindow_inbuf (s : State) {k : Nat} (h : k < Config.inCap) :
    s.readWindow (0x100000 + k) = s.inbufByte k := by
  unfold State.readWindow
  rw [inbufIndex_eq_some_iff.mpr ⟨rfl, h⟩]

theorem State.readWindow_outbuf (s : State) {k : Nat} (h : k < Config.outCap) :
    s.readWindow (0x200000 + k) = s.outbufByte k := by
  have hcap := inCap_bounds.2
  unfold Config.maxCap at hcap
  unfold State.readWindow
  rw [inbufIndex_eq_none (by omega), outbufIndex_eq_some_iff.mpr ⟨rfl, h⟩]

theorem State.readWindow_outside (s : State) {off : Nat} (hin : inbufIndex off = none)
    (hout : outbufIndex off = none) : s.readWindow off = 0 := by
  unfold State.readWindow
  rw [hin, hout]

theorem State.writeWindow_inbuf (s : State) {k : Nat} (h : k < Config.inCap) (b : Byte) :
    s.writeWindow (0x100000 + k) b = { s with inbuf := s.inbuf.write k b } := by
  unfold State.writeWindow
  rw [inbufIndex_eq_some_iff.mpr ⟨rfl, h⟩]

theorem State.writeWindow_outside (s : State) {off : Nat}
    (h : off < 0x100000 ∨ 0x100000 + Config.inCap ≤ off) (b : Byte) : s.writeWindow off b = s := by
  unfold State.writeWindow
  rw [inbufIndex_eq_none h]

/-- A read of an INBUF byte after a write of one. -/
theorem State.inbufByte_write (s : State) (k j : Nat) (b : Byte) :
    ({ s with inbuf := s.inbuf.write k b } : State).inbufByte j = if j = k then b else s.inbufByte j := by
  unfold State.inbufByte
  rw [Memory.read?_write]
  split <;> rfl

/-! ### The registers -/

/-- A number of at most a buffer's bits reads back from a 32-bit register. -/
theorem toNat_register_of_le {n : Nat} (h : n ≤ 8 * Config.maxCap) : (BitVec.ofNat 32 n).toNat = n := by
  unfold Config.maxCap at h
  exact Nat.mod_eq_of_lt (by omega)

theorem State.lengthsLegal.le_maxCap {s : State} (h : s.lengthsLegal) :
    s.inlen ≤ Config.maxCap ∧ s.outlen ≤ Config.maxCap :=
  ⟨h.1.trans inCap_bounds.2, h.2.trans outCap_bounds.2⟩

theorem State.lengthsLegal.cursorLen_le {s : State} (h : s.lengthsLegal) : s.cursorLen ≤ Config.maxCap := by
  unfold State.cursorLen
  cases s.mode with
  | idle => exact Nat.zero_le _
  | read => exact h.le_maxCap.1
  | write => exact h.le_maxCap.2

theorem State.readRegister_lengths {s : State} (h : s.lengthsLegal) :
    (s.readRegister 0x10).toNat = s.inlen ∧ (s.readRegister 0x14).toNat = s.outlen := by
  obtain ⟨hin, hout⟩ := h.le_maxCap
  exact ⟨toNat_register_of_le (by omega), toNat_register_of_le (by omega)⟩

theorem State.readRegister_pos {s : State} (hlen : s.lengthsLegal) (hcur : s.cursorLegal) :
    (s.readRegister 0x18).toNat = s.pos := by
  have hpos := s.cursorLegal_iff.mp hcur
  have hcap := hlen.cursorLen_le
  exact toNat_register_of_le (by omega)

/-- CMD and every offset that names no register read 0 (20_memory.md R61, R63). -/
theorem State.readRegister_other (s : State) {off : Nat} (h : off % 4 ≠ 0 ∨ 0x28 ≤ off ∨ off = 0) :
    s.readRegister off = 0 := by
  unfold State.readRegister
  split
  case h_10 => rfl
  all_goals omega

theorem State.writeRegister_other (s : State) {off : Nat} (harg : off ≠ 0x04) (hinlen : off ≠ 0x10) (v : Word) :
    s.writeRegister off v = s := by
  rcases s.writeRegister_cases off v with ⟨h, -⟩ | ⟨h, -⟩ | h
  · exact absurd h harg
  · exact absurd h hinlen
  · exact h

/-! ### The bytes of a word on the bus -/

/-- A word is the sum of its four bytes at their places. -/
theorem ofNat_sum_of_bytes (w : Word) :
    BitVec.ofNat 32 ((w.extractLsb' 0 8).toNat + 2 ^ 8 * (w.extractLsb' 8 8).toNat +
      2 ^ 16 * (w.extractLsb' 16 8).toNat + 2 ^ 24 * (w.extractLsb' 24 8).toNat) = w := by
  apply BitVec.eq_of_toNat_eq
  have hw := w.isLt
  simp only [BitVec.toNat_ofNat, BitVec.extractLsb'_toNat, Nat.shiftRight_eq_div_pow]
  omega

/-! ### One step for each access -/

variable {s : State} {rest : List HostAccess} {off : Nat} {v : Word} {b : Byte}

theorem step_writeWord_arg (hp : s.pending = .writeWord 0x04 v :: rest) :
    step s = .next { s with pending := rest, arg := v } :=
  (step_of_pending hp).trans (serveWord_of_ne (by decide) v _)

theorem step_writeWord_inlen (hp : s.pending = .writeWord 0x10 v :: rest) :
    step s = .next (({ s with pending := rest } : State).writeInlen v.toNat) :=
  (step_of_pending hp).trans (serveWord_of_ne (by decide) v _)

/-- A read-only register and an offset that names no register ignore a write (20_memory.md R60, R63). -/
theorem step_writeWord_other (hp : s.pending = .writeWord off v :: rest) (hcmd : off ≠ 0x00) (harg : off ≠ 0x04)
    (hinlen : off ≠ 0x10) : step s = .next { s with pending := rest } := by
  rw [step_of_pending hp, serve, serveWord_of_ne hcmd, State.writeRegister_other _ harg hinlen]

/-- A register written as four bytes is written as the word they make (20_memory.md R55; log 6). -/
theorem step_writeWordBytes {b0 b1 b2 b3 : Byte} (hp : s.pending = .writeWordBytes off b0 b1 b2 b3 :: rest) :
    step s = step { s with pending := .writeWord off (busWord Config.hostBusEndian b0 b1 b2 b3) :: rest } :=
  (step_of_pending hp).trans rfl

theorem step_writeByte_inbuf {k : Nat} (hp : s.pending = .writeByte (0x100000 + k) b :: rest)
    (hk : k < Config.inCap) : step s = .next { s with pending := rest, inbuf := s.inbuf.write k b } := by
  rw [step_of_pending hp, serve, State.writeWindow_inbuf _ hk]

theorem step_writeByte_outside (hp : s.pending = .writeByte off b :: rest)
    (h : off < 0x100000 ∨ 0x100000 + Config.inCap ≤ off) : step s = .next { s with pending := rest } := by
  rw [step_of_pending hp, serve, State.writeWindow_outside _ h]

end Sys2Proof.Machine
end

section
/-! SUPPORT. The proofs of the statements about the host's accesses and the address map (20_memory.md). -/

namespace Sys2Proof.Machine

/-- Settles O9: one clause for each access. A write of four bytes comes down to the write of its word. -/
theorem hostAccessSideEffects : Obligations.HostAccessSideEffects := by
  intro s rest
  refine ⟨fun off hp => ⟨step_of_pending hp, fun _ => rfl⟩, fun off hp => ⟨step_of_pending hp, fun _ => rfl⟩,
    fun v hp => step_writeWord_arg hp, fun off v hp => step_writeWord_other hp, fun k b hp hk => ?inbufByte,
    fun off b hp => step_writeByte_outside hp, fun off b0 b1 b2 b3 hp => ?fourBytes,
    fun h hp => step_of_pending hp, fun p hp => step_of_pending hp⟩
  case inbufByte =>
    exact ⟨_, step_writeByte_inbuf hp hk, rfl, fun j => State.inbufByte_write { s with pending := rest } k j b⟩
  case fourBytes =>
    rw [step_writeWordBytes hp]
    refine ⟨rfl, ?arg, ?inlen, step_writeWord_other rfl⟩
    case arg =>
      rintro rfl
      exact step_writeWord_arg rfl
    case inlen =>
      rintro rfl
      exact ⟨_, step_writeWord_inlen rfl, rfl, clampInlen _⟩

/-- Settles O10: the registers by the bounds of what they hold, the windows by their index functions. -/
theorem addressMapReads : Obligations.AddressMapReads := by
  intro s
  obtain ⟨hin, hout⟩ := s.readRegister_capacities
  refine ⟨rfl, rfl, rfl, State.readRegister_lengths, State.readRegister_pos, ?mode, hin, hout,
    fun _ => s.readRegister_other, fun _ => s.readWindow_inbuf, fun _ => s.readWindow_outbuf, fun off h => ?outside⟩
  case mode =>
    change BitVec.ofNat 32 (modeCode s.mode) = _
    cases s.mode with
    | idle => rfl
    | read => rfl
    | write => rfl
  case outside =>
    have hcap := inCap_bounds.2
    unfold Config.maxCap at hcap
    exact s.readWindow_outside (inbufIndex_eq_none (by omega)) (outbufIndex_eq_none (by omega))

/-- Settles O11: the two orders put the same byte at the same place of the word. -/
theorem busBytesMakeTheWordAgain : Obligations.BusBytesMakeTheWordAgain := by
  intro e w
  cases e with
  | little => exact ⟨_, _, _, _, rfl, ofNat_sum_of_bytes w⟩
  | big => exact ⟨_, _, _, _, rfl, ofNat_sum_of_bytes w⟩

end Sys2Proof.Machine
end

section
/-! SUPPORT. The command word (30_encoding.md Part A): its fields as numbers, the fields of an encoded command, and
the words the decoder accepts for each operation. -/

namespace Sys2Proof

/-! ### The fields of a word -/

@[simp] theorem toNat_opField (w : Word) : (opField w).toNat = w.toNat % 2 ^ 8 := by simp [opField]

@[simp] theorem toNat_wField (w : Word) : (wField w).toNat = w.toNat / 2 ^ 8 % 2 ^ 6 := by
  simp [wField, Nat.shiftRight_eq_div_pow]

@[simp] theorem toNat_sField (w : Word) : (sField w).toNat = w.toNat / 2 ^ 14 % 2 :=
  Nat.toNat_testBit w.toNat 14

@[simp] theorem toNat_rsvField (w : Word) : (rsvField w).toNat = w.toNat / 2 ^ 15 := by
  have hw : w.toNat < 2 ^ 32 := w.isLt
  simp only [rsvField, BitVec.extractLsb'_toNat, Nat.shiftRight_eq_div_pow]
  omega

/-- The four fields take up every bit of a word (30_encoding.md R70). -/
theorem word_ext {v w : Word} (hop : opField v = opField w) (hwidth : wField v = wField w)
    (hstore : sField v = sField w) (hrsv : rsvField v = rsvField w) : v = w := by
  have hop' := congrArg BitVec.toNat hop
  have hwidth' := congrArg BitVec.toNat hwidth
  have hstore' := congrArg Bool.toNat hstore
  have hrsv' := congrArg BitVec.toNat hrsv
  simp only [toNat_opField, toNat_wField, toNat_sField, toNat_rsvField] at hop' hwidth' hstore' hrsv'
  exact BitVec.eq_of_toNat_eq (by omega)

/-! ### Operations and their OP values -/

theorem Op.ofCode_code (o : Op) : Op.ofCode o.code = some o := by cases o <;> rfl

theorem Op.code_of_ofCode {b : BitVec 8} {o : Op} (h : Op.ofCode b = some o) : o.code = b := by
  simpa using List.find?_some h

/-- The OP values of the opcode map (30_encoding.md R77, R78). -/
theorem Op.exists_code_iff (n : Nat) :
    (∃ o : Op, o.code.toNat = n) ↔ (0x01 ≤ n ∧ n ≤ 0x07) ∨ (0x10 ≤ n ∧ n ≤ 0x14) := by
  constructor
  · rintro ⟨o, rfl⟩
    cases o <;> decide
  · rintro (⟨h1, h7⟩ | ⟨h16, h20⟩)
    · interval_cases n
      exacts [⟨.cinitr, rfl⟩, ⟨.cinitw, rfl⟩, ⟨.rdbits, rfl⟩, ⟨.wrbits, rfl⟩, ⟨.getpos, rfl⟩, ⟨.seek, rfl⟩,
        ⟨.remain, rfl⟩]
    · interval_cases n
      exacts [⟨.decrtp, rfl⟩, ⟨.encrtp, rfl⟩, ⟨.decanc, rfl⟩, ⟨.encanc, rfl⟩, ⟨.verifycs, rfl⟩]

theorem Op.usesWidth_iff (o : Op) : o.usesWidth = true ↔ o.code.toNat = 0x03 ∨ o.code.toNat = 0x04 := by
  cases o <;> decide

theorem Op.eq_verifycs_iff (o : Op) : o = .verifycs ↔ o.code.toNat = 0x14 := by cases o <;> decide

/-! ### The command of an operation and its operand fields -/

@[simp] theorem Op.op_instr (o : Op) (width : BitVec 6) (s : Bool) : (o.instr width s).op = o := by
  cases o <;> rfl

theorem Op.widthField_instr {o : Op} {width : BitVec 6} (s : Bool) (h : o.usesWidth = false → width = 0) :
    (o.instr width s).widthField = width := by
  cases o with
  | rdbits | wrbits => rfl
  | _ => exact (h rfl).symm

theorem Op.storeField_instr {o : Op} (width : BitVec 6) {s : Bool} (h : s = true → o = .verifycs) :
    ((o.instr width s).storeField == 1) = s := by
  cases s with
  | true => rw [h rfl]; rfl
  | false => cases o <;> rfl

/-- Only RDBITS and WRBITS can be ill formed, by their width (30_encoding.md R72). -/
theorem Op.wellFormed_instr (o : Op) (width : BitVec 6) (s : Bool) :
    (o.instr width s).wellFormed = true ↔ (o.usesWidth = true → 1 ≤ width.toNat ∧ width.toNat ≤ 32) := by
  have hlegal : legalWidth width = true ↔ 1 ≤ width.toNat ∧ width.toNat ≤ 32 := by simp [legalWidth]
  cases o with
  | rdbits | wrbits => exact hlegal.trans ⟨fun h _ => h, fun h => h rfl⟩
  | _ => exact ⟨fun _ h => (nomatch h), fun _ => rfl⟩

/-- A command is made of its operation and its operand fields. -/
theorem Instr.instr_op (i : Instr) : i.op.instr i.widthField (i.storeField == 1) = i := by
  cases i with
  | verifycs store => cases store <;> rfl
  | _ => rfl

/-- Each field of a command fits its place in the word. -/
theorem Instr.fields_lt (i : Instr) :
    i.op.code.toNat < 2 ^ 8 ∧ i.widthField.toNat < 2 ^ 6 ∧ i.storeField < 2 := by
  refine ⟨i.op.code.isLt, i.widthField.isLt, ?_⟩
  cases i with
  | verifycs store => cases store <;> decide
  | _ => exact Nat.zero_lt_two

/-! ### The fields of an encoded command -/

theorem toNat_encode (i : Instr) :
    (encode i).toNat = i.op.code.toNat + i.widthField.toNat * 2 ^ 8 + i.storeField * 2 ^ 14 := by
  obtain ⟨hcode, hwidth, hstore⟩ := i.fields_lt
  exact (BitVec.toNat_ofNat _ _).trans (Nat.mod_eq_of_lt (by omega))

@[simp] theorem opField_encode (i : Instr) : opField (encode i) = i.op.code := by
  obtain ⟨hcode, -, -⟩ := i.fields_lt
  apply BitVec.eq_of_toNat_eq
  rw [toNat_opField, toNat_encode]
  omega

@[simp] theorem wField_encode (i : Instr) : wField (encode i) = i.widthField := by
  obtain ⟨hcode, hwidth, -⟩ := i.fields_lt
  apply BitVec.eq_of_toNat_eq
  rw [toNat_wField, toNat_encode]
  omega

@[simp] theorem sField_encode (i : Instr) : sField (encode i) = (i.storeField == 1) := by
  obtain ⟨hcode, hwidth, hstore⟩ := i.fields_lt
  have hbit : (sField (encode i)).toNat = i.storeField := by
    rw [toNat_sField, toNat_encode]
    omega
  rw [← hbit]
  cases sField (encode i) <;> rfl

@[simp] theorem rsvField_encode (i : Instr) : rsvField (encode i) = 0 := by
  obtain ⟨hcode, hwidth, hstore⟩ := i.fields_lt
  apply BitVec.eq_of_toNat_eq
  rw [toNat_rsvField, toNat_encode]
  show _ = 0
  omega

/-! ### The words the decoder accepts -/

/-- The word has the OP of `o` and passes the checks of 30_encoding.md R76 that the decoder makes: all but step 4. -/
structure Op.Accepts (o : Op) (w : Word) : Prop where
  op : opField w = o.code
  rsv : rsvField w = 0
  store : sField w = true → o = .verifycs
  width : o.usesWidth = false → wField w = 0

/-- All that the decoder can answer. -/
theorem decode_cases (w : Word) :
    (∃ o : Op, o.Accepts w ∧ decode w = .ok (o.instr (wField w) (sField w))) ∨
      (∀ o : Op, ¬ o.Accepts w) ∧ decode w = .error .illegalCommand := by
  unfold decode
  cases hop : Op.ofCode (opField w) with
  | none =>
    refine .inr ⟨fun o h => ?_, rfl⟩
    rw [h.op, o.ofCode_code] at hop
    cases hop
  | some o =>
    have only {o' : Op} (h : o'.Accepts w) : o' = o := by
      rw [h.op, Op.ofCode_code] at hop
      exact Option.some.inj hop
    by_cases hrsv : rsvField w ≠ 0
    · exact .inr ⟨fun o' h => hrsv h.rsv, if_pos hrsv⟩
    by_cases hstore : sField w = true ∧ o ≠ .verifycs
    · obtain ⟨hset, hother⟩ := hstore
      exact .inr ⟨fun o' h => hother (only h ▸ h.store hset), (if_neg hrsv).trans (if_pos ⟨hset, hother⟩)⟩
    by_cases hwidth : o.usesWidth = false ∧ wField w ≠ 0
    · obtain ⟨hnone, hset⟩ := hwidth
      exact .inr ⟨fun o' h => hset (h.width (only h ▸ hnone)),
        (if_neg hrsv).trans ((if_neg hstore).trans (if_pos ⟨hnone, hset⟩))⟩
    · exact .inl ⟨o, ⟨(Op.code_of_ofCode hop).symm, not_not.mp hrsv, by simpa using hstore, by simpa using hwidth⟩,
        (if_neg hrsv).trans ((if_neg hstore).trans (if_neg hwidth))⟩

theorem Op.Accepts.unique {o o' : Op} {w : Word} (h : o.Accepts w) (h' : o'.Accepts w) : o = o' :=
  Option.some.inj (by rw [← o.ofCode_code, ← o'.ofCode_code, ← h.op, ← h'.op])

theorem Op.Accepts.decode {o : Op} {w : Word} (h : o.Accepts w) :
    decode w = .ok (o.instr (wField w) (sField w)) := by
  rcases decode_cases w with ⟨o', h', hd⟩ | ⟨hnone, -⟩
  · rw [h.unique h', hd]
  · exact absurd h (hnone o)

theorem decode_of_not_accepted {w : Word} (h : ¬ ∃ o : Op, o.Accepts w) : decode w = .error .illegalCommand := by
  rcases decode_cases w with ⟨o, ho, -⟩ | ⟨-, hd⟩
  · exact absurd ⟨o, ho⟩ h
  · exact hd

theorem exists_accepts_of_decode {w : Word} {i : Instr} (h : decode w = .ok i) :
    ∃ o : Op, o.Accepts w ∧ i = o.instr (wField w) (sField w) := by
  rcases decode_cases w with ⟨o, ho, hd⟩ | ⟨-, hd⟩
  · exact ⟨o, ho, Except.ok.inj (h.symm.trans hd)⟩
  · cases h.symm.trans hd

/-- The checks as numbers, OP in the place of the operation (30_encoding.md R76, R78). -/
theorem Op.accepts_iff (o : Op) (w : Word) :
    o.Accepts w ↔ o.code.toNat = w.toNat % 2 ^ 8 ∧ w.toNat / 2 ^ 15 = 0 ∧
      (w.toNat / 2 ^ 14 % 2 ≠ 0 → w.toNat % 2 ^ 8 = 0x14) ∧
      (w.toNat % 2 ^ 8 ≠ 0x03 ∧ w.toNat % 2 ^ 8 ≠ 0x04 → w.toNat / 2 ^ 8 % 2 ^ 6 = 0) := by
  have hop : opField w = o.code ↔ o.code.toNat = w.toNat % 2 ^ 8 := by
    rw [← BitVec.toNat_inj, toNat_opField, eq_comm]
  have hrsv : rsvField w = 0 ↔ w.toNat / 2 ^ 15 = 0 := by
    rw [← BitVec.toNat_inj, toNat_rsvField]; rfl
  have hstore : sField w = true ↔ w.toNat / 2 ^ 14 % 2 ≠ 0 := by
    rw [← toNat_sField, ne_eq, Bool.toNat_eq_zero, Bool.not_eq_false]
  have hwidth : wField w = 0 ↔ w.toNat / 2 ^ 8 % 2 ^ 6 = 0 := by
    rw [← BitVec.toNat_inj, toNat_wField]; rfl
  have hnone : o.usesWidth = false ↔ o.code.toNat ≠ 0x03 ∧ o.code.toNat ≠ 0x04 := by
    rw [← Bool.not_eq_true, o.usesWidth_iff, not_or]
  constructor
  · rintro ⟨h1, h2, h3, h4⟩
    rw [hop] at h1
    rw [hstore, o.eq_verifycs_iff, h1] at h3
    rw [hnone, hwidth, h1] at h4
    exact ⟨h1, hrsv.mp h2, h3, h4⟩
  · rintro ⟨h1, h2, h3, h4⟩
    rw [← h1] at h3 h4
    exact ⟨hop.mpr h1, hrsv.mpr h2, by rwa [hstore, o.eq_verifycs_iff], by rwa [hnone, hwidth]⟩

/-- The words of the opcode map, of any W on RDBITS and WRBITS (30_encoding.md R78). -/
theorem exists_accepts_iff (w : Word) :
    (∃ o : Op, o.Accepts w) ↔
      ((0x01 ≤ w.toNat % 2 ^ 8 ∧ w.toNat % 2 ^ 8 ≤ 0x07) ∨ (0x10 ≤ w.toNat % 2 ^ 8 ∧ w.toNat % 2 ^ 8 ≤ 0x14)) ∧
      w.toNat / 2 ^ 15 = 0 ∧ (w.toNat / 2 ^ 14 % 2 ≠ 0 → w.toNat % 2 ^ 8 = 0x14) ∧
      (w.toNat % 2 ^ 8 ≠ 0x03 ∧ w.toNat % 2 ^ 8 ≠ 0x04 → w.toNat / 2 ^ 8 % 2 ^ 6 = 0) := by
  simp only [Op.accepts_iff, exists_and_right, Op.exists_code_iff]

/-! ### Decoding and encoding -/

theorem Instr.accepts_encode (i : Instr) : i.op.Accepts (encode i) where
  op := opField_encode i
  rsv := rsvField_encode i
  store h := by
    rw [sField_encode] at h
    cases i with
    | verifycs => rfl
    | _ => cases h
  width h := by
    rw [wField_encode]
    cases i with
    | rdbits | wrbits => cases h
    | _ => rfl

theorem decode_encode (i : Instr) : decode (encode i) = .ok i := by
  rw [i.accepts_encode.decode, wField_encode, sField_encode, i.instr_op]

theorem Op.Accepts.encode_instr {o : Op} {w : Word} (h : o.Accepts w) :
    encode (o.instr (wField w) (sField w)) = w := by
  apply word_ext
  · rw [opField_encode, Op.op_instr, h.op]
  · rw [wField_encode, Op.widthField_instr _ h.width]
  · rw [sField_encode, Op.storeField_instr _ h.store]
  · rw [rsvField_encode, h.rsv]

theorem encode_of_decode {w : Word} {i : Instr} (h : decode w = .ok i) : encode i = w := by
  obtain ⟨o, ho, rfl⟩ := exists_accepts_of_decode h
  exact ho.encode_instr

/-- The decoder accepts a word for the operation whose checks it passes. -/
theorem exists_decode_op_iff (w : Word) (o : Op) : (∃ i, decode w = .ok i ∧ i.op = o) ↔ o.Accepts w := by
  constructor
  · rintro ⟨i, hd, rfl⟩
    obtain ⟨o, ho, rfl⟩ := exists_accepts_of_decode hd
    rwa [Op.op_instr]
  · exact fun h => ⟨_, h.decode, Op.op_instr o _ _⟩

/-! ### The opcode table -/

theorem opField_and (v w : Word) : opField (v &&& w) = opField v &&& opField w := BitVec.extractLsb'_and

theorem wField_and (v w : Word) : wField (v &&& w) = wField v &&& wField w := BitVec.extractLsb'_and

theorem sField_and (v w : Word) : sField (v &&& w) = (sField v && sField w) := BitVec.getLsbD_and

theorem rsvField_and (v w : Word) : rsvField (v &&& w) = rsvField v &&& rsvField w := BitVec.extractLsb'_and

theorem exists_row (o : Op) : ∃ r ∈ opcodeTable, r.op = o := by cases o <;> decide

/-- The value of a row is its OP (30_encoding.md R77). -/
theorem fields_of_value : ∀ r ∈ opcodeTable, opField r.value = r.op.code ∧ wField r.value = 0 ∧
    sField r.value = false ∧ rsvField r.value = 0 := by
  decide

/-- The mask of a row leaves out W for a command with a width, S for VERIFYCS, and nothing else. -/
theorem fields_of_mask : ∀ r ∈ opcodeTable, opField r.mask = BitVec.allOnes 8 ∧
    wField r.mask = (if r.op.usesWidth then 0 else BitVec.allOnes 6) ∧
    sField r.mask = (r.op != .verifycs) ∧ rsvField r.mask = BitVec.allOnes 17 := by
  decide

/-- A word is of a row exactly when it passes the checks of the row's operation. -/
theorem OpcodeRow.fits_iff {r : OpcodeRow} (hr : r ∈ opcodeTable) (w : Word) : r.fits w = true ↔ r.op.Accepts w := by
  obtain ⟨vop, vwidth, vstore, vrsv⟩ := fields_of_value r hr
  obtain ⟨mop, mwidth, mstore, mrsv⟩ := fields_of_mask r hr
  have hop : opField (w &&& r.mask) = opField w := by rw [opField_and, mop, BitVec.and_allOnes]
  have hrsv : rsvField (w &&& r.mask) = rsvField w := by rw [rsvField_and, mrsv, BitVec.and_allOnes]
  have hstore : sField (w &&& r.mask) = false ↔ (sField w = true → r.op = .verifycs) := by
    rw [sField_and, mstore]
    cases sField w <;> simp
  have hwidth : wField (w &&& r.mask) = 0 ↔ (r.op.usesWidth = false → wField w = 0) := by
    rw [wField_and, mwidth]
    cases r.op.usesWidth with
    | true => simp
    | false =>
      rw [if_neg Bool.false_ne_true, BitVec.and_allOnes]
      exact ⟨fun h _ => h, fun h => h rfl⟩
  have hfits : r.fits w = true ↔ w &&& r.mask = r.value := beq_iff_eq
  constructor
  · intro h
    rw [hfits] at h
    rw [h] at hop hrsv hstore hwidth
    exact ⟨hop.symm.trans vop, hrsv.symm.trans vrsv, hstore.mp vstore, hwidth.mp vwidth⟩
  · intro h
    exact hfits.mpr (word_ext (hop.trans (h.op.trans vop.symm)) ((hwidth.mpr h.width).trans vwidth.symm)
      ((hstore.mpr h.store).trans vstore.symm) (hrsv.trans (h.rsv.trans vrsv.symm)))

end Sys2Proof
end

section
/-! SUPPORT. The proofs of the statements about the command word (30_encoding.md). -/

namespace Sys2Proof.Machine

/-! ### The endings of a command word -/

/-- The state after an error, its code written out (60_exceptions.md R251). -/
theorem State.raise_eq (s : State) (e : CmdError) :
    s.raise e = { s with status := BitVec.ofNat 32 (errCode e).toNat } := by
  rw [← statusWord_errCode]
  rfl

theorem runCommand_of_not_accepted {w : Word} (h : ¬ ∃ o : Op, o.Accepts w) (s : State) :
    runCommand w s = .next { s with status := 5 } := by
  unfold runCommand
  rw [decode_of_not_accepted h]
  exact congrArg Host.Outcome.next (s.raise_eq .illegalCommand)

/-- RDBITS and WRBITS check the width before everything else (30_encoding.md R76 step 4). -/
theorem exec_of_illegalWidth {w : BitVec 6} (h : w.toNat = 0 ∨ 33 ≤ w.toNat) (s : State) :
    exec (.rdbits w) s = .next { s with status := 4 } ∧ exec (.wrbits w) s = .next { s with status := 4 } := by
  have hraise : s.raise .illegalWidth = { s with status := 4 } := s.raise_eq .illegalWidth
  rw [← hraise]
  constructor
  · rcases execRdbits_cases w s with ⟨-, hx⟩ | ⟨h1, h32, -⟩ | ⟨h1, h32, -⟩ | ⟨h1, h32, -⟩
    · exact hx
    all_goals omega
  · rcases execWrbits_cases w s with ⟨-, hx⟩ | ⟨h1, h32, -⟩ | ⟨h1, h32, -⟩ | ⟨h1, h32, -⟩ | ⟨h1, h32, -⟩
    · exact hx
    all_goals omega

/-- A word that only the width check of 30_encoding.md R76 step 4 rejects. -/
theorem runCommand_of_illegalWidth {o : Op} {w : Word} (h : o.Accepts w) (huses : o.usesWidth = true)
    (hwidth : (wField w).toNat = 0 ∨ 33 ≤ (wField w).toNat) (s : State) :
    runCommand w s = .next { s with status := 4 } := by
  obtain ⟨hrdbits, hwrbits⟩ := exec_of_illegalWidth hwidth s
  rw [runCommand_of_decode h.decode]
  cases o with
  | rdbits => exact hrdbits
  | wrbits => exact hwrbits
  | _ => cases huses

/-! ### The statements -/

/-- Settles O1: the words are short enough to run the decoder on. -/
theorem commandWordsDecodeAsWritten : Obligations.CommandWordsDecodeAsWritten := by
  unfold Obligations.CommandWordsDecodeAsWritten
  decide

/-- Settles O2: the fields of an encoded command are the command's, and a word is made of its four fields. -/
theorem decodeAndEncodeAgree : Obligations.DecodeAndEncodeAgree := by
  intro w i
  constructor
  · exact encode_of_decode
  · rintro rfl
    exact decode_encode i

/-- Settles O3: both sides say that the word passes the checks of the operation. -/
theorem decoderAcceptsExactlyTheOpcodeTable : Obligations.DecoderAcceptsExactlyTheOpcodeTable := by
  intro w o
  rw [exists_decode_op_iff]
  constructor
  · intro h
    obtain ⟨r, hr, rfl⟩ := exists_row o
    exact ⟨r, hr, rfl, (OpcodeRow.fits_iff hr w).mpr h⟩
  · rintro ⟨r, hr, rfl, hfits⟩
    exact (OpcodeRow.fits_iff hr w).mp hfits

/-- Settles O4: the illegal words are those no operation accepts. -/
theorem illegalWordsChangeOnlyStatus : Obligations.IllegalWordsChangeOnlyStatus := by
  intro s w op illegal
  have hillegal : illegal ↔ ¬ ∃ o : Op, o.Accepts w := by
    rw [exists_accepts_iff]
    simp only [illegal, op]
    omega
  constructor
  · exact fun h => runCommand_of_not_accepted (hillegal.mp h) s
  · intro h
    obtain ⟨o, ho⟩ := not_not.mp (mt hillegal.mpr h)
    exact ⟨_, ho.decode, runCommand_of_decode ho.decode s⟩

/-- Settles O5: a word that fails step 1, 2, 3 or 5 is accepted for no operation, one that fails step 4 is a RDBITS or
WRBITS of an illegal width. -/
theorem wordChecksRunInOrder : Obligations.WordChecksRunInOrder := by
  intro s w op width ended
  have haccepts : (∃ o : Op, o.Accepts w) ↔ ((0x01 ≤ op ∧ op ≤ 0x07) ∨ (0x10 ≤ op ∧ op ≤ 0x14)) ∧
      w.toNat / 2 ^ 15 = 0 ∧ (w.toNat / 2 ^ 14 % 2 ≠ 0 → op = 0x14) ∧ (op ≠ 0x03 ∧ op ≠ 0x04 → width = 0) :=
    exists_accepts_iff w
  have hcode {o : Op} (h : o.Accepts w) : o.code.toNat = op := ((o.accepts_iff w).mp h).1
  have hfield : (wField w).toNat = width := toNat_wField w
  have refused (h : ¬ ∃ o : Op, o.Accepts w) : ended 5 := runCommand_of_not_accepted h s
  -- The cases stand in the order of the chain, but for the OP outside the table, which comes last.
  split_ifs with hop hrsv hstore hwidth hunused
  · exact refused (mt haccepts.mp fun ⟨_, hzero, _, _⟩ => hrsv hzero)
  · obtain ⟨hset, hother⟩ := hstore
    exact refused (mt haccepts.mp fun ⟨_, _, himp, _⟩ => hother (himp hset))
  · obtain ⟨o, ho⟩ := haccepts.mpr ⟨hop, by omega, by omega, by omega⟩
    refine runCommand_of_illegalWidth ho (o.usesWidth_iff.mpr ?_) ?_ s
    · rw [hcode ho]
      omega
    · rw [hfield]
      omega
  · obtain ⟨hne3, hne4, hset⟩ := hunused
    exact refused (mt haccepts.mp fun ⟨_, _, _, himp⟩ => hset (himp ⟨hne3, hne4⟩))
  · obtain ⟨o, ho⟩ := haccepts.mpr ⟨hop, by omega, by omega, by omega⟩
    refine ⟨_, ho.decode, (o.wellFormed_instr _ _).mpr ?_, ?_, runCommand_of_decode ho.decode s⟩
    · rw [o.usesWidth_iff, hcode ho, hfield]
      omega
    · rw [Op.op_instr, hcode ho]
  · exact refused (mt haccepts.mp fun ⟨hin, _, _, _⟩ => hop hin)

/-- Settles O13: the access that sets ARG, then the write of the command's word, which decodes to it. -/
theorem pseudoInstructionSetsArgThenRuns : Obligations.PseudoInstructionSetsArgThenRuns := by
  intro s v i rest hp
  have harg := step_writeWord_arg (s := s) (v := v) (rest := .writeWord cmdOffset (encode i) :: rest) hp
  obtain ⟨-, hcmd, -⟩ :=
    stepRunsTheDecodedCommand { s with arg := v, pending := .writeWord 0 (encode i) :: rest } (encode i) rest
  exact ⟨_, harg, rfl, hcmd i (decode_encode i) rfl⟩

/-- Settles O26: both commands check their width first. -/
theorem illegalWidthsAreRejected : Obligations.IllegalWidthsAreRejected := fun _ s h => exec_of_illegalWidth h s

end Sys2Proof.Machine
end

section
/-! SUPPORT. Reads after writes of the Bit Cursor's pure functions (40_bit_cursor.md R112): a write leaves every bit
before it, so what stands behind a cursor stays there while the cursor goes on. -/

namespace Sys2Proof.Machine

/-- A write leaves the bits before its position and never shortens the buffer. -/
theorem writeBitsF_keeps_before {B B' : List Byte} {p p' n v : Nat} {room : Nat → Bool}
    (h : writeBitsF B p n v room = .ok (B', p')) :
    B.length ≤ B'.length ∧ ∀ q < p, bitAt B' q = bitAt B q := by
  obtain ⟨-, -, hlen, -, hbits⟩ := writeBitsF_ok _ _ _ _ _ _ _ h
  refine ⟨hlen ▸ (le_grownLength B.length p n).1, fun q hq => ?_⟩
  rw [hbits, if_neg (by omega)]

/-- The bits a write put at a position are read back there, from any buffer that still has its bits up to the end of
the write. -/
theorem readBitsF_of_written {B B' C : List Byte} {p p' n v : Nat} {room : Nat → Bool}
    (h : writeBitsF B p n v room = .ok (B', p')) (hlen : B'.length ≤ C.length)
    (hkeep : ∀ q < p + n, bitAt C q = bitAt B' q) : readBitsF C p n = .ok (v, p + n) := by
  obtain ⟨hv, -, hgrown, -, hbits⟩ := writeBitsF_ok _ _ _ _ _ _ _ h
  have hend := (le_grownLength B.length p n).2
  have hvalue : bitsValue C p n = v := by
    refine bitsValue_eq C p n v hv fun i hi => ?_
    rw [hkeep _ (by omega), hbits, if_pos (by omega), Nat.add_sub_cancel_left]
  rw [readBitsF_ok C p n (by omega), hvalue]

/-- A sequence of writes is its first write, then the others from where that one ended. -/
theorem writeAll_cons {room : Nat → Bool} {v n p p' : Nat} {rest : List (Nat × Nat)} {B B' : List Byte}
    (h : writeAll room ((v, n) :: rest) B p = .ok (B', p')) :
    ∃ B₁, writeBitsF B p n v room = .ok (B₁, p + n) ∧ writeAll room rest B₁ (p + n) = .ok (B', p') := by
  rw [writeAll] at h
  rcases hw : writeBitsF B p n v room with e | ⟨B₁, p₁⟩ <;> rw [hw] at h
  · cases h
  · obtain ⟨-, rfl, -⟩ := writeBitsF_ok _ _ _ _ _ _ _ hw
    exact ⟨B₁, rfl, h⟩

/-- A sequence of reads is its first read, then the others from where that one ended. -/
theorem readAll_cons {B : List Byte} {n p p' v : Nat} {rest vs : List Nat}
    (hread : readBitsF B p n = .ok (v, p')) (hrest : readAll B rest p' = .ok vs) :
    readAll B (n :: rest) p = .ok (v :: vs) := by
  rw [readAll, hread]
  simp only [hrest]

/-- A sequence of writes leaves the bits before its position and never shortens the buffer. -/
theorem writeAll_keeps_before {room : Nat → Bool} {fields : List (Nat × Nat)} {B B' : List Byte} {p p' : Nat}
    (h : writeAll room fields B p = .ok (B', p')) :
    B.length ≤ B'.length ∧ ∀ q < p, bitAt B' q = bitAt B q := by
  induction fields generalizing B p with
  | nil =>
    cases h
    exact ⟨Nat.le_refl _, fun _ _ => rfl⟩
  | cons field rest ih =>
    obtain ⟨B₁, hfirst, hrest⟩ := writeAll_cons h
    obtain ⟨hlen₁, hkeep₁⟩ := writeBitsF_keeps_before hfirst
    obtain ⟨hlen, hkeep⟩ := ih hrest
    exact ⟨hlen₁.trans hlen, fun q hq => (hkeep q (by omega)).trans (hkeep₁ q hq)⟩

/-- A sequence of writes from any position is read back from there. -/
theorem readAll_of_writeAll {room : Nat → Bool} {fields : List (Nat × Nat)} {B B' : List Byte} {p p' : Nat}
    (h : writeAll room fields B p = .ok (B', p')) :
    readAll B' (fields.map Prod.snd) p = .ok (fields.map Prod.fst) := by
  induction fields generalizing B p with
  | nil => rfl
  | cons field rest ih =>
    obtain ⟨B₁, hfirst, hrest⟩ := writeAll_cons h
    obtain ⟨hlen, hkeep⟩ := writeAll_keeps_before hrest
    exact readAll_cons (readBitsF_of_written hfirst hlen hkeep) (ih hrest)

end Sys2Proof.Machine
end

section
/-! SUPPORT. What the Bit Cursor commands need of the state and of their words: the output as the host reads it, the
end of the cursor's buffer, the word of a command without the bit S. -/

namespace Sys2Proof.Machine

/-! ### The output -/

/-- The two states agree in OUTLEN, in the cells of OUTBUF and in the draw of what lies beyond. -/
structure State.SameOutput (s t : State) : Prop where
  outlen : t.outlen = s.outlen
  outbuf : t.outbuf = s.outbuf
  outDraws : t.outDraws = s.outDraws

/-- The commands that store into OUTBUF or write OUTLEN: CINITW, WRBITS and the two encodes. -/
def writesOutput : Instr → Bool
  | .cinitw | .wrbits _ | .encrtp | .encanc => true
  | .cinitr | .rdbits _ | .getpos | .seek | .remain | .decrtp | .decanc | .verifycs _ => false

theorem Succeeds.sameOutput {i : Instr} {s u : State} {a : Advisories} (h : Succeeds i s u a)
    (hi : writesOutput i = false) : s.SameOutput (u.succeed a) := by
  cases h with
  | cinitw => cases hi
  | wrbits => cases hi
  | encrtp => cases hi
  | encanc => cases hi
  | _ => exact ⟨rfl, rfl, rfl⟩

/-- The output's frame of the commands that store nothing, failing ones included. -/
theorem exec_sameOutput {i : Instr} {s t : State} (h : exec i s = .next t) (hi : writesOutput i = false) :
    s.SameOutput t := by
  rcases exec_next h with ⟨e, rfl⟩ | ⟨u, a, rfl, hu⟩
  · exact ⟨rfl, rfl, rfl⟩
  · exact hu.sameOutput hi

theorem State.SameOutput.outbufCell {s t : State} (h : s.SameOutput t) (hr : t.resets = s.resets) (k : Nat) :
    t.outbufCell k = s.outbufCell k := by
  unfold State.outbufCell
  rw [h.outbuf, hr]

theorem State.SameOutput.outbufByte {s t : State} (h : s.SameOutput t) (hr : t.resets = s.resets) (k : Nat) :
    t.outbufByte k = s.outbufByte k := by
  unfold State.outbufByte
  rw [h.outlen, h.outDraws, h.outbufCell hr]

/-- What the host reads in the windows is what it reads of the bytes of the two buffers. -/
theorem State.readWindow_congr {s t : State} (hin : ∀ k, t.inbufByte k = s.inbufByte k)
    (hout : ∀ k, t.outbufByte k = s.outbufByte k) (off : Nat) : t.readWindow off = s.readWindow off := by
  unfold State.readWindow
  simp only [hin, hout]

/-- A stream bit of the output, as the host reads it. -/
theorem State.streamBit_outbufByte (s : State) {q : Nat} (h : q < 8 * s.outlen) :
    streamBit s.outbufByte q = bitAt s.outBytes q := by
  rw [s.bitAt_outBytes q h, streamBit, streamBit, s.outbufByte_of_lt _ (by omega)]

/-- The output after a WRBITS is the bytes it put there. -/
theorem State.outBytes_putOutput (s : State) (bytes : List Byte) : (s.putOutput bytes).outBytes = bytes := by
  refine List.ext_getElem? fun k => ?_
  by_cases hk : k < bytes.length
  · rw [State.getElem?_outBytes _ k hk, s.outbufCell_putOutput, List.getElem?_eq_getElem hk, Option.getD_some]
  · rw [List.getElem?_eq_none (by rw [State.length_outBytes]; exact Nat.le_of_not_lt hk),
      List.getElem?_eq_none (Nat.le_of_not_lt hk)]

/-- A WRBITS leaves the cells beyond the bytes it puts. -/
theorem State.outbufCell_putOutput_of_le (s : State) {bytes : List Byte} {k : Nat} (h : bytes.length ≤ k) :
    (s.putOutput bytes).outbufCell k = s.outbufCell k := by
  rw [s.outbufCell_putOutput, List.getElem?_eq_none h, Option.getD_none]

/-! ### The cursor's buffer -/

theorem State.cursorLen_of_ne_idle {s : State} (h : s.mode ≠ .idle) :
    s.cursorLen = if s.mode = .read then s.inlen else s.outlen := by
  unfold State.cursorLen
  cases hm : s.mode with
  | idle => exact absurd hm h
  | read => rfl
  | write => rfl

/-! ### The word and the ending of a command -/

/-- The word of a command other than VERIFYCS of RecIn: OP, and W above it. -/
theorem decode_of_storeField_zero {i : Instr} (h : i.storeField = 0) :
    decode (BitVec.ofNat 32 (i.op.code.toNat + 2 ^ 8 * i.widthField.toNat)) = .ok i := by
  have hword : encode i = BitVec.ofNat 32 (i.op.code.toNat + 2 ^ 8 * i.widthField.toNat) := by
    rw [encode, h, Nat.zero_mul, Nat.add_zero, Nat.mul_comm]
  rw [← hword, decode_encode]

/-- A command that ended with an error, its code written out (60_exceptions.md R251, R258). -/
theorem next_status_of_raise {r : Host.Outcome State Fault Refusal} {s : State} {e : CmdError}
    (h : r = .next (s.raise e)) : r = .next { s with status := BitVec.ofNat 32 (errCode e).toNat } :=
  h.trans (congrArg Host.Outcome.next (s.raise_eq e))

/-- A success without advisories leaves STATUS 0 (10_state.md R27). -/
theorem State.succeed_clear (u : State) : u.succeed .clear = { u with status := 0 } := by
  rw [State.succeed, statusWord_clear]

end Sys2Proof.Machine
end

section
/-! SUPPORT. The proofs of the statements about the Bit Cursor (40_bit_cursor.md). -/

namespace Sys2Proof.Machine

/-- Settles O30: a write is read back from every buffer that keeps it, and later writes keep it. -/
theorem cursorRoundTrip : Obligations.CursorRoundTrip :=
  ⟨fun _ _ _ _ _ _ _ h => readBitsF_of_written h (Nat.le_refl _) fun _ _ => rfl,
    fun _ _ _ _ _ h => readAll_of_writeAll h⟩

/-- Settles O17, by the frame of the commands that store nothing and the frame of every command. -/
theorem nonStoringCommandsKeepEveryByte : Obligations.NonStoringCommandsKeepEveryByte := by
  intro i s t h hi
  have hstores : writesOutput i = false := by
    rcases hi with rfl | ⟨w, rfl⟩ | rfl | rfl | rfl | rfl | rfl | ⟨st, rfl⟩ <;> rfl
  have hin := exec_sameInputs h
  have hout := exec_sameOutput h hstores
  have hbyte := hout.outbufByte hin.resets
  exact ⟨hout.outlen, hout.outbuf, hout.outbufCell hin.resets, hbyte, State.readWindow_congr hin.inbufByte hbyte⟩

/-- The value RDBITS reads, as RESULT holds it (20_memory.md R51). -/
theorem toNat_result_of_rdbits {s : State} {n : Nat} (hn : n ≤ 32) (hend : s.pos + n ≤ 8 * s.inlen) :
    (BitVec.ofNat 32 (bitsValue s.inBytes s.pos n)).toNat = fieldAt s.inbufByte s.pos n := by
  have hlt : bitsValue s.inBytes s.pos n < 2 ^ 32 :=
    (bitsValue_lt _ _ _).trans_le (Nat.pow_le_pow_right (by decide) hn)
  rw [BitVec.toNat_ofNat, Nat.mod_eq_of_lt hlt]
  exact bitsValue_eq_fieldAt _ _ _ _ fun i hi => s.bitAt_inBytes _ (by omega)

/-- Settles O24: the outcomes of the command, each under its own condition. -/
theorem rdbitsReadsTheNextBits : Obligations.RdbitsReadsTheNextBits := by
  intro w s h1 h32
  refine ⟨decode_of_storeField_zero (i := .rdbits w) rfl, ?_⟩
  rcases execRdbits_cases w s with ⟨hw, -⟩ | ⟨-, -, hmode, hx⟩ | ⟨-, -, hmode, hend, hx⟩ | ⟨-, -, hmode, hend, hx⟩
  · omega
  · exact ⟨fun _ => next_status_of_raise hx, fun h => absurd h hmode, fun h => absurd h hmode⟩
  · exact ⟨fun h => absurd hmode h, fun _ _ => next_status_of_raise hx, fun _ h => by omega⟩
  · refine ⟨fun h => absurd hmode h, fun _ h => by omega, fun _ _ => ⟨_, hx, ?_, toNat_result_of_rdbits h32 hend⟩⟩
    exact State.succeed_clear _

theorem length_of_wrbits {s : State} {n v p' : Nat} {bytes : List Byte}
    (h : writeBitsF s.outBytes s.pos n v fitsOut = .ok (bytes, p')) :
    bytes.length = grownLength s.outlen s.pos n := by
  obtain ⟨-, -, hlen, -, -⟩ := writeBitsF_ok _ _ _ _ _ _ _ h
  rw [hlen, State.length_outBytes]

/-- Each bit of the output after a successful WRBITS, as the host reads it. -/
theorem streamBit_of_wrbits {s : State} {n v p' : Nat} {bytes : List Byte}
    (h : writeBitsF s.outBytes s.pos n v fitsOut = .ok (bytes, p')) {q : Nat} (hq : q < 8 * bytes.length) :
    streamBit (s.putOutput bytes).outbufByte q =
      if s.pos ≤ q ∧ q < s.pos + n then v.testBit (n - 1 - (q - s.pos))
      else if q < 8 * s.outlen then streamBit s.outbufByte q else false := by
  obtain ⟨-, -, -, -, hbits⟩ := writeBitsF_ok _ _ _ _ _ _ _ h
  rw [State.streamBit_outbufByte _ hq, s.outBytes_putOutput, hbits]
  congr 1
  by_cases hold : q < 8 * s.outlen
  · rw [if_pos hold, s.streamBit_outbufByte hold]
  · rw [if_neg hold, bitAt_of_le _ _ (by rw [State.length_outBytes]; omega)]

/-- Settles O25: the outcomes of the command, each under its own condition. -/
theorem wrbitsWritesExactlyItsBits : Obligations.WrbitsWritesExactlyItsBits := by
  intro w s h1 h32 n len
  refine ⟨decode_of_storeField_zero (i := .wrbits w) rfl, ?_⟩
  rcases execWrbits_cases w s with ⟨hw, -⟩ | ⟨-, -, hmode, hx⟩ | ⟨-, -, hmode, hbig, hx⟩ |
    ⟨-, -, hmode, hfits, hroom, hx⟩ | ⟨-, -, hmode, hfits, hroom, bytes, hwrite, hx⟩
  · omega
  · exact ⟨fun _ => next_status_of_raise hx, fun h => absurd h hmode, fun h => absurd h hmode,
      fun h => absurd h hmode⟩
  · exact ⟨fun h => absurd hmode h, fun _ _ => next_status_of_raise hx, fun _ h => absurd hbig (Nat.not_le.mpr h),
      fun _ h => absurd hbig (Nat.not_le.mpr h)⟩
  · exact ⟨fun h => absurd hmode h, fun _ h => absurd h (Nat.not_le.mpr hfits),
      fun _ _ _ => next_status_of_raise hx, fun _ _ h => absurd h (Nat.not_le.mpr hroom)⟩
  · have hlen : bytes.length = len := length_of_wrbits hwrite
    rw [← hlen]
    exact ⟨fun h => absurd hmode h, fun _ h => absurd h (Nat.not_le.mpr hfits),
      fun _ _ h => absurd (hlen ▸ hroom) (Nat.not_le.mpr h), fun _ _ _ => ⟨_, hx, State.succeed_clear _,
        fun q hq => streamBit_of_wrbits hwrite hq, fun k hk => s.outbufCell_putOutput_of_le hk⟩⟩

/-- Settles O22: CINITR has no check and writes the cursor only. -/
theorem cinitrStartsAReader : Obligations.CinitrStartsAReader :=
  ⟨decode_encode .cinitr, fun _ => congrArg Host.Outcome.next (State.succeed_clear _)⟩

/-- Settles O23: CINITW has no check and does not write the cells of OUTBUF. -/
theorem cinitwStartsAWriterFromEmpty : Obligations.CinitwStartsAWriterFromEmpty :=
  ⟨decode_encode .cinitw, fun _ => ⟨_, rfl, State.succeed_clear _, fun _ => rfl⟩⟩

/-- Settles O27: a legal position fits the 32 bits of RESULT. -/
theorem getposReturnsThePosition : Obligations.GetposReturnsThePosition := by
  refine ⟨decode_encode .getpos, fun s => ?_⟩
  rcases execGetpos_cases s with ⟨hmode, hx⟩ | ⟨hmode, hx⟩
  · exact ⟨fun _ => next_status_of_raise hx, fun h => absurd hmode h⟩
  · refine ⟨fun h => absurd h hmode, fun _ hcur hlen => ⟨_, hx, State.succeed_clear _, ?_⟩⟩
    have hpos := s.cursorLegal_iff.mp hcur
    have hcap := hlen.cursorLen_le
    exact toNat_register_of_le (by omega)

/-- Settles O28: the bound SEEK checks is the end of the buffer that a cursor not IDLE reads or builds. -/
theorem seekMovesWithinTheBuffer : Obligations.SeekMovesWithinTheBuffer := by
  refine ⟨decode_encode .seek, fun s => ?_⟩
  intro len
  have hend (h : s.mode ≠ .idle) : s.cursorLen = len := State.cursorLen_of_ne_idle h
  rcases execSeek_cases s with ⟨hmode, hx⟩ | ⟨hmode, harg, hx⟩ | ⟨hmode, harg, hx⟩
  · exact ⟨fun _ => next_status_of_raise hx, fun h => absurd hmode h, fun h => absurd hmode h⟩
  · rw [hend hmode] at harg
    exact ⟨fun h => absurd h hmode, fun _ _ => next_status_of_raise hx, fun _ h => absurd h (Nat.not_le.mpr harg)⟩
  · rw [hend hmode] at harg
    exact ⟨fun h => absurd h hmode, fun _ h => absurd harg (Nat.not_le.mpr h),
      fun _ _ => hx.trans (congrArg Host.Outcome.next (State.succeed_clear _))⟩

/-- Settles O29: the bits left of a legal cursor fit the 32 bits of RESULT, and the subtraction is not cut off. -/
theorem remainCountsTheBitsLeft : Obligations.RemainCountsTheBitsLeft := by
  refine ⟨decode_encode .remain, fun s => ?_⟩
  rcases execRemain_cases s with ⟨hmode, hx⟩ | ⟨hmode, hx⟩
  · exact ⟨fun _ => next_status_of_raise hx, fun h => absurd hmode h⟩
  · refine ⟨fun h => absurd h hmode, fun _ hcur hlen => ⟨_, hx, State.succeed_clear _, ?_⟩⟩
    have hpos := s.cursorLegal_iff.mp hcur
    have hcap := hlen.cursorLen_le
    have hleft : (BitVec.ofNat 32 (8 * s.cursorLen - s.pos)).toNat = 8 * s.cursorLen - s.pos :=
      toNat_register_of_le (by omega)
    rw [State.succeed_result, hleft, ← State.cursorLen_of_ne_idle hmode]
    omega

end Sys2Proof.Machine
end

section
/-! SUPPORT. The field codec as one access of the Bit Cursor (41_field_codec.md R130), and the proof of the statement
about it. -/

namespace Sys2Proof.Machine

/-- A field of a value that fits is one write without a capacity limit (41_field_codec.md R133). -/
theorem encodeField_of_lt {cur : PrivateCursor} {v w : Nat} (hv : v < 2 ^ w) :
    ∃ B, writeBitsF cur.bytes cur.pos w v (fun _ => true) = .ok (B, cur.pos + w) ∧
      encodeField cur v w = .ok ⟨B, cur.pos + w⟩ := by
  rcases writeBitsF_cases cur.bytes cur.pos w v (fun _ => true) with ⟨hbig, -⟩ | ⟨-, hroom, -⟩ | ⟨-, -, hwrite⟩
  · exact absurd hbig (Nat.not_le.mpr hv)
  · cases hroom
  · refine ⟨_, hwrite, ?_⟩
    rw [encodeField, if_neg (Nat.not_le.mpr hv), hwrite]

/-- A field is one read (41_field_codec.md R132). -/
theorem decodeField_of_readBitsF {cur : PrivateCursor} {v w p : Nat}
    (h : readBitsF cur.bytes cur.pos w = .ok (v, p)) : decodeField cur w = .ok (v, ⟨cur.bytes, p⟩) := by
  rw [decodeField, h]

/-- Settles O31: the field's write is read back by the round trip of the Bit Cursor (40_bit_cursor.md R112). -/
theorem fieldRoundTrip : Obligations.FieldRoundTrip := by
  intro cur v w _ _ hv
  obtain ⟨B, hwrite, hencode⟩ := encodeField_of_lt (cur := cur) hv
  obtain ⟨hreadBack, -⟩ := cursorRoundTrip
  exact ⟨_, hencode, decodeField_of_readBitsF (hreadBack _ _ _ _ _ _ _ hwrite)⟩

end Sys2Proof.Machine
end

section
/-! SUPPORT. The computed fields (42_computed_fields.md): the parity pair, the padding width and the checksum word in
plain arithmetic, and the proofs of the statements about them. -/

namespace Sys2Proof.Machine

/-! ### The parity pair -/

theorem ep_lt (x : Nat) : ep x < 2 := Nat.mod_lt _ (by decide)

/-- The bits of `x` at the places of a list, summed, are the places where `x` has a set bit. -/
theorem sum_bits_eq_length_filter (x : Nat) (places : List Nat) :
    (places.map (fun i => x / 2 ^ i % 2)).sum = (places.filter (fun i => x.testBit i)).length := by
  induction places with
  | nil => rfl
  | cons i places ih =>
    rw [List.map_cons, List.sum_cons, ih, ← Nat.toNat_testBit, List.filter_cons]
    cases x.testBit i
    · exact Nat.zero_add _
    · exact Nat.add_comm _ _

theorem popcount8_eq_length_filter (x : Nat) :
    popcount8 x = ((List.range 8).filter (fun i => x.testBit i)).length := sum_bits_eq_length_filter x _

theorem parityPair_div_two (x : Nat) : parityPair x / 2 = ep x := by
  unfold parityPair
  omega

theorem parityPair_mod_two (x : Nat) : parityPair x % 2 = 1 - ep x := by
  unfold parityPair
  omega

/-- A value and its even-parity bit have an even number of set bits together (42_computed_fields.md R153). -/
theorem popcount8_add_ep (x : Nat) : (popcount8 x + ep x) % 2 = 0 := by
  unfold ep
  omega

/-- Settles O32: the two bits of the pair are read off one after the other, and the set bits counted one by one. -/
theorem parityPairIsEvenParityAndItsInverse : Obligations.ParityPairIsEvenParityAndItsInverse := by
  intro x _
  have hbit1 : parityPair x / 2 % 2 = ep x := by rw [parityPair_div_two, Nat.mod_eq_of_lt (ep_lt x)]
  refine ⟨?_, hbit1, parityPair_lt x, ?_⟩
  · rw [hbit1, parityPair_mod_two]
  · rw [← popcount8_eq_length_filter, popcount8_add_ep]

/-! ### The padding width -/

/-- The 62 bits of a message's head, its `d` user-data words, its checksum word and its padding end on a multiple of 32
bits (42_computed_fields.md R168). -/
theorem packet_mod_32 (d : Nat) : (72 + 10 * d + wordAlignWidth d) % 32 = 0 := by
  unfold wordAlignWidth
  omega

/-- The bounds and the alignment leave one width (42_computed_fields.md R164). -/
theorem wordAlignWidth_unique {d w : Nat} (h1 : 1 ≤ w) (h32 : w ≤ 32) (h : (72 + 10 * d + w) % 32 = 0) :
    wordAlignWidth d = w := by
  unfold wordAlignWidth
  omega

/-- Settles O33, each clause from the bounds of the width and the alignment. -/
theorem paddingAlignsEveryPacket : Obligations.PaddingAlignsEveryPacket := by
  intro d
  obtain ⟨hpos, hmax⟩ := wordAlignWidth_bounds d
  have halign := packet_mod_32 d
  refine ⟨?_, by omega, by omega, hmax, by omega, halign⟩
  obtain ⟨hpos16, hmax16⟩ := wordAlignWidth_bounds (d % 16)
  have halign16 := packet_mod_32 (d % 16)
  exact wordAlignWidth_unique hpos16 hmax16 (by omega)

/-! ### The checksum word -/

/-- The low 9 bits of a word that carries the parity pair of its 8-bit value `x`: bit 9, the even-parity bit, is
dropped (42_computed_fields.md R160, R161). -/
theorem nineBitTerm_modEq (x : Nat) : nineBitTerm x ≡ parityPair x * 256 + x [MOD 512] := by
  have hsplit : parityPair x * 256 + x = nineBitTerm x + 512 * ep x := by
    unfold parityPair nineBitTerm
    omega
  rw [hsplit, Nat.ModEq, Nat.add_mul_mod_self_left]

/-- The terms of the user data sum to what their 10-bit words do, modulo 512. -/
theorem sum_nineBitTerm_modEq (ud : List Byte) :
    (ud.map (fun b => nineBitTerm b.toNat)).sum ≡ (ud.map udw).sum [MOD 512] := by
  induction ud with
  | nil => rfl
  | cons b bs ih => exact (nineBitTerm_modEq b.toNat).add ih

/-- The checksum sum over the words as the encoder writes them (42_computed_fields.md R158). -/
theorem checksumSum_eq (did sdid count : Nat) (ud : List Byte) :
    checksumSum did sdid count ud = (did + sdid + (parityPair count * 256 + count) + (ud.map udw).sum) % 512 :=
  (((Nat.mod_modEq did 512).add (Nat.mod_modEq sdid 512)).add (nineBitTerm_modEq count)).add
    (sum_nineBitTerm_modEq ud)

theorem checksumWord_mod_512 (did sdid count : Nat) (ud : List Byte) :
    checksumWord did sdid count ud % 512 = checksumSum did sdid count ud := by
  have := checksumSum_lt did sdid count ud
  unfold checksumWord
  omega

/-- Bit 9 of the checksum word is the inverse of its bit 8 (42_computed_fields.md R162). -/
theorem checksumWord_div_512 (did sdid count : Nat) (ud : List Byte) :
    checksumWord did sdid count ud / 512 = 1 - checksumWord did sdid count ud / 256 % 2 := by
  have := checksumSum_lt did sdid count ud
  unfold checksumWord
  omega

/-- The checksum word depends on DID and SDID modulo 512 only. -/
theorem checksumWord_congr {did did' sdid sdid' : Nat} (hdid : did % 512 = did' % 512)
    (hsdid : sdid % 512 = sdid' % 512) (count : Nat) (ud : List Byte) :
    checksumWord did sdid count ud = checksumWord did' sdid' count ud := by
  have hsum : checksumSum did sdid count ud = checksumSum did' sdid' count ud := by
    rw [checksumSum, checksumSum, hdid, hsdid]
  rw [checksumWord, checksumWord, hsum]

/-- Settles O34: the word's low bits are the sum, and the sum takes DID and SDID modulo 512. -/
theorem checksumWordSumsNineBitWords : Obligations.ChecksumWordSumsNineBitWords := by
  intro did sdid ud _
  refine ⟨?_, checksumWord_div_512 _ _ _ _, checksumWord_lt _ _ _ _,
    checksumWord_congr (Nat.add_mod_right did 512) rfl _ _, checksumWord_congr rfl (Nat.add_mod_right sdid 512) _ _⟩
  rw [checksumWord_mod_512, checksumSum_eq]

end Sys2Proof.Machine
end

section
/-! SUPPORT. Where each message stands in an encoded payload, what the encoder reads of a record, and the proofs of the
statements about the encoder's computed fields (42_computed_fields.md R152, R154, R157, R163, R166). -/

namespace Sys2Proof.Machine

/-! ### The record's derived fields -/

/-- The message with other values in its derived fields `dataCountParity`, `dataCount` and `checksum`. -/
def AncMessage.setDerived (m : AncMessage) (derived : Nat × Nat × Nat) : AncMessage :=
  { m with dataCountParity := derived.1, dataCount := derived.2.1, checksum := derived.2.2 }

/-- The encoder computes the derived fields from the user data, DID and SDID, which are the same in both messages. -/
@[simp] theorem encodeAncMessage_setDerived (m : AncMessage) (derived : Nat × Nat × Nat) (cur : PrivateCursor) :
    encodeAncMessage (m.setDerived derived) cur = encodeAncMessage m cur := rfl

theorem encodeMessages_map_setDerived (g : AncMessage → Nat × Nat × Nat) (ms : List AncMessage) (cur : PrivateCursor) :
    encodeMessages (ms.map (fun m => m.setDerived (g m))) cur = encodeMessages ms cur := by
  induction ms generalizing cur with
  | nil => rfl
  | cons m ms ih => simp only [List.map_cons, encodeMessages, encodeAncMessage_setDerived, ih]

/-- The encoding of a packet, by its messages' number and encoding and the two fields of its header. -/
theorem encodeAncPacket_congr {p p' : AncPacket} (hlen : p'.messages.length = p.messages.length)
    (hfield : p'.field = p.field) (hreserved : p'.reserved = p.reserved)
    (hms : ∀ cur, encodeMessages p'.messages cur = encodeMessages p.messages cur) :
    encodeAncPacket p' = encodeAncPacket p := by
  simp only [encodeAncPacket, hlen, hfield, hreserved, hms]

/-- Settles O45: no message's encoding reads its derived fields, and the count of the header is that of the list. -/
theorem encoderIgnoresDerivedFields : Obligations.EncoderIgnoresDerivedFields := fun p _ g =>
  encodeAncPacket_congr (List.length_map _) rfl rfl (encodeMessages_map_setDerived g p.messages)

/-! ### The padding -/

theorem getD_fieldBits_zero (w i : Nat) : (fieldBits 0 w).getD i false = false := by
  simp [fieldBits]

/-- The bits of a message after its head, its user data and its checksum are padding, and 0 (42_computed_fields.md
R166). -/
theorem AncMessage.getD_wire_padding (m : AncMessage) {i : Nat} (h : 72 + 10 * m.userData.length ≤ i) :
    m.wire.getD i false = false := by
  have hlen := m.length_wire
  rw [AncMessage.wire, List.length_append, length_fieldBits, msgBits] at hlen
  rw [AncMessage.wire, List.getD_append_right _ _ _ _ (by omega), getD_fieldBits_zero]

/-- Message `k` stands in the list's bits right after the messages before it (44_packet_schemas.md R209). -/
theorem getD_messagesWire (ms : List AncMessage) (k : Nat) (hk : k < ms.length) {i : Nat}
    (hi : i < msgBits ms[k].userData.length) :
    (messagesWire ms).getD ((messagesWire (ms.take k)).length + i) false = ms[k].wire.getD i false := by
  have hsplit : messagesWire ms = messagesWire (ms.take k) ++ (ms[k].wire ++ messagesWire (ms.drop (k + 1))) := by
    conv_lhs => rw [← List.take_append_drop k ms, List.drop_eq_getElem_cons hk]
    simp only [messagesWire, List.flatMap_append, List.flatMap_cons]
  rw [hsplit, List.getD_append_right _ _ _ _ (Nat.le_add_right _ _), Nat.add_sub_cancel_left,
    List.getD_append _ _ _ _ (by rw [AncMessage.length_wire]; exact hi)]

/-- The messages' bits stand in the packet's after the 32 bits of its header (30_encoding.md R85). -/
theorem AncPacket.getD_wire_messages (p : AncPacket) (i : Nat) :
    p.wire.getD (32 + i) false = (messagesWire p.messages).getD i false := by
  have hheader : (schemaWire ancHeaderSchema [p.messages.length, p.field, p.reserved]).length = 32 := rfl
  rw [AncPacket.wire, List.getD_append_right _ _ _ _ (by omega), hheader, Nat.add_sub_cancel_left]

/-- The bits of message `k` of an encoded payload. -/
theorem bitAt_encodeAncPacket {p : AncPacket} {bytes : List Byte} (h : encodeAncPacket p = .ok bytes) (k : Nat)
    (hk : k < p.messages.length) {i : Nat} (hi : i < msgBits p.messages[k].userData.length) :
    bitAt bytes (32 + 8 * ((p.messages.take k).map (fun m => msgBytes m.userData.length)).sum + i) =
      p.messages[k].wire.getD i false := by
  rcases encodeAncPacket_cases p with ⟨-, hr⟩ | ⟨-, bytes', hr, hlen, hbits⟩
  · rw [hr] at h
    cases h
  · obtain rfl : bytes' = bytes := Except.ok.inj (hr.symm.trans h)
    have hwire (q : Nat) : bitAt bytes' q = p.wire.getD q false := by
      by_cases hq : q < 8 * p.byteLength
      · exact hbits q hq
      · rw [bitAt_of_le _ _ (by omega), List.getD_eq_default _ _ (by rw [p.length_wire]; omega)]
    rw [hwire, ← length_messagesWire, Nat.add_assoc, p.getD_wire_messages, getD_messagesWire _ k hk hi]

/-- Settles O44: the padding bits of a message stand at the end of its own bits, which stand in the payload from where
the message starts. -/
theorem encodedPaddingIsZero : Obligations.EncodedPaddingIsZero := by
  intro p bytes h k hk a d q hstart hend
  obtain ⟨i, rfl⟩ := Nat.exists_eq_add_of_le (show a ≤ q by omega)
  rw [bitAt_encodeAncPacket h k hk (Nat.add_lt_add_iff_left.mp hend), AncMessage.getD_wire_padding]
  omega

end Sys2Proof.Machine
end

section
/-! SUPPORT. The user data as 10-bit words (43_subword_array.md): what a word keeps of its payload byte, the words that
stand where user data was packed, and the proof of the statement about them. -/

namespace Sys2Proof.Machine

/-- The payload byte is the low 8 bits of its word, below the parity pair (43_subword_array.md R181). -/
theorem udw_mod_256 (b : Byte) : udw b % 256 = b.toNat := by
  have := b.isLt
  unfold udw
  omega

theorem udw_div_256 (b : Byte) : udw b / 256 = parityPair b.toNat := by
  have := b.isLt
  unfold udw
  omega

@[simp] theorem ofNat_udw (b : Byte) : BitVec.ofNat 8 (udw b) = b := by
  rw [← BitVec.toNat_inj, BitVec.toNat_ofNat]
  exact udw_mod_256 b

/-- The word of a byte carries the parity pair that the decoder expects (43_subword_array.md R184). -/
@[simp] theorem udwMismatch_udw (b : Byte) : udwMismatch (udw b) = false := by
  rw [udwMismatch, udw_mod_256, udw_div_256, Nat.mod_eq_of_lt (parityPair_lt _), bne_self_eq_false]

/-- Where the bits of user data stand, the words read are those of its bytes. -/
theorem udwsAt_eq_map_udw {bytes : List Byte} {p : Nat} {ud : List Byte}
    (h : ∀ i < 10 * ud.length, bitAt bytes (p + i) = (userDataWire ud).getD i false) :
    udwsAt bytes p ud.length = ud.map udw := by
  induction ud generalizing p with
  | nil => rfl
  | cons b bs ih =>
    have hwire : userDataWire (b :: bs) = fieldBits (udw b) 10 ++ userDataWire bs := List.flatMap_cons
    rw [List.length_cons] at h
    have hword : bitsValue bytes p 10 = udw b := by
      refine bitsValue_eq bytes p 10 (udw b) (udw_lt b) fun i hi => ?_
      rw [h i (by omega), hwire, List.getD_append _ _ _ _ (by rwa [length_fieldBits]), getD_fieldBits _ _ _ hi]
    have hrest : udwsAt bytes (p + 10) bs.length = bs.map udw := by
      refine ih fun i hi => ?_
      rw [Nat.add_assoc, h (10 + i) (by omega), hwire, List.getD_append_right _ _ _ _ (by simp), length_fieldBits,
        Nat.add_sub_cancel_left]
    rw [List.length_cons, udwsAt_succ, hword, hrest, List.map_cons]

/-- The buffer has grown to hold the bits that were written. -/
theorem PrivateCursor.Wrote.end_le {cur cur' : PrivateCursor} {bits : List Bool} (h : cur.Wrote cur' bits)
    (hne : 0 < bits.length) : cur.pos + bits.length ≤ 8 * cur'.bytes.length := by
  obtain ⟨-, hlen, -⟩ := h
  rw [hlen, if_neg (Nat.ne_of_gt hne)]
  exact (le_grownLength _ _ _).2

/-- The words read where user data was packed are those of its bytes. -/
theorem PrivateCursor.Wrote.udwsAt_eq {cur cur' : PrivateCursor} {ud : List Byte}
    (h : cur.Wrote cur' (userDataWire ud)) : udwsAt cur'.bytes cur.pos ud.length = ud.map udw := by
  obtain ⟨-, -, hbits⟩ := h
  refine udwsAt_eq_map_udw fun i hi => ?_
  rw [hbits, length_userDataWire, if_pos (by omega), Nat.add_sub_cancel_left]

/-- User data is unpacked from where it was packed, with no mismatch (43_subword_array.md R188). -/
theorem PrivateCursor.Wrote.unpackUserData_eq {cur cur' : PrivateCursor} {ud : List Byte}
    (h : cur.Wrote cur' (userDataWire ud)) :
    unpackUserData ud.length ⟨cur'.bytes, cur.pos⟩ = .ok (ud, 0, ⟨cur'.bytes, cur.pos + 10 * ud.length⟩) := by
  rcases unpackUserData_cases ud.length ⟨cur'.bytes, cur.pos⟩ with ⟨hpos, hshort, -⟩ | ⟨-, hr⟩
  · have hend := h.end_le (by rw [length_userDataWire]; omega)
    rw [length_userDataWire] at hend
    exact absurd hend (Nat.not_le.mpr hshort)
  · have hbytes : (ud.map udw).map (BitVec.ofNat 8) = ud := by simp [Function.comp_def]
    have hmatch : ((ud.map udw).filter udwMismatch).length = 0 := by simp
    rw [hr, h.udwsAt_eq, hbytes, hmatch]

/-- What a successful unpack keeps: one byte per word received (43_subword_array.md R184). -/
theorem eq_map_udwsAt_of_unpackUserData {d bad : Nat} {ud : List Byte} {cur cur' : PrivateCursor}
    (h : unpackUserData d cur = .ok (ud, bad, cur')) :
    ud = (udwsAt cur.bytes cur.pos d).map (BitVec.ofNat 8) := by
  rcases unpackUserData_cases d cur with ⟨-, -, hr⟩ | ⟨-, hr⟩ <;> rw [hr] at h <;> cases h
  rfl

/-- Settles O35: packing writes the bits of the words, which are read back; and a byte kept is a received word modulo
256. -/
theorem userDataRoundTrip : Obligations.UserDataRoundTrip := by
  constructor
  · intro ud cur _
    obtain ⟨cur', hpack, hwrote⟩ := packUserData_wrote ud cur
    exact ⟨cur', hpack, hwrote.unpackUserData_eq⟩
  · intro d bad ud cur cur' h
    obtain rfl := eq_map_udwsAt_of_unpackUserData h
    refine ⟨by simp, fun i hi => ?_⟩
    rw [List.getElem_map, BitVec.toNat_ofNat]
    simp only [udwsAt, List.getElem_map, List.getElem_range]

end Sys2Proof.Machine
end

section
/-! SUPPORT. Fields of byte strings that share bits: strings with the same first bits, a string of bits that stands in
a byte string, and the bytes that stand in a buffer from an index on. -/

namespace Sys2Proof.Machine

/-! ### The same first bits -/

/-- The first `n` stream bits of `C` are those of `B`. -/
def SameBits (B C : List Byte) (n : Nat) : Prop := ∀ q < n, bitAt C q = bitAt B q

theorem SameBits.mono {B C : List Byte} {m n : Nat} (h : SameBits B C n) (hle : m ≤ n) : SameBits B C m :=
  fun q hq => h q (Nat.lt_of_lt_of_le hq hle)

theorem SameBits.field_eq {B C : List Byte} {n : Nat} (h : SameBits B C n) {p w : Nat} (hend : p + w ≤ n) :
    bitsValue C p w = bitsValue B p w :=
  bitsValue_congr _ _ _ _ _ fun i hi => h (p + i) (by omega)

theorem SameBits.words_eq {B C : List Byte} {n : Nat} (h : SameBits B C n) {p d : Nat} (hend : p + 10 * d ≤ n) :
    udwsAt C p d = udwsAt B p d :=
  List.map_congr_left fun i hi => h.field_eq (by have := List.mem_range.mp hi; omega)

/-- Strings with the same first bytes have the same first bits. -/
theorem sameBits_of_getElem? {B C : List Byte} {n : Nat} (h : ∀ j < n, C[j]? = B[j]?) : SameBits B C (8 * n) := by
  intro q hq
  simp only [bitAt, List.getD_eq_getElem?_getD, h (q / 8) (by omega)]

theorem sameBits_take (B : List Byte) (n : Nat) : SameBits (B.take n) B (8 * n) :=
  sameBits_of_getElem? fun _ hj => (List.getElem?_take_of_lt hj).symm

theorem sameBits_take_append (B rest : List Byte) {n : Nat} (h : n ≤ B.length) :
    SameBits B (B.take n ++ rest) (8 * n) :=
  sameBits_of_getElem? fun j hj => by
    rw [List.getElem?_append_left (by rw [List.length_take]; omega), List.getElem?_take_of_lt hj]

/-! ### Bits that stand in a byte string -/

/-- The bits `bits` stand in `B` from stream position `a` on. -/
def StandsAt (B : List Byte) (a : Nat) (bits : List Bool) : Prop :=
  ∀ i < bits.length, bitAt B (a + i) = bits.getD i false

theorem StandsAt.append {B : List Byte} {a : Nat} {x y : List Bool} (h : StandsAt B a (x ++ y)) :
    StandsAt B a x ∧ StandsAt B (a + x.length) y := by
  unfold StandsAt at h
  rw [List.length_append] at h
  refine ⟨fun i hi => ?_, fun i hi => ?_⟩
  · rw [h i (by omega), List.getD_append _ _ _ _ hi]
  · rw [Nat.add_assoc, h _ (by omega), List.getD_append_right _ _ _ _ (by omega), Nat.add_sub_cancel_left]

/-- A field is read where its bits stand (41_field_codec.md R134). -/
theorem StandsAt.field_eq {B : List Byte} {a v w : Nat} (h : StandsAt B a (fieldBits v w)) (hv : v < 2 ^ w) :
    bitsValue B a w = v := by
  unfold StandsAt at h
  rw [length_fieldBits] at h
  exact bitsValue_eq B a w v hv fun i hi => by rw [h i hi, getD_fieldBits _ _ _ hi]

/-- The values that stand in `B` from stream position `a` on, one for each field of a schema. -/
def fieldsAt (B : List Byte) : Nat → List FieldDesc → List Nat
  | _, [] => []
  | a, d :: ds => bitsValue B a d.width :: fieldsAt B (a + d.width) ds

/-- The fields of a schema are read where the bits of its values stand (41_field_codec.md R135). -/
theorem StandsAt.fields_eq {B : List Byte} {a : Nat} {ds : List FieldDesc} {vs : List Nat}
    (h : StandsAt B a (schemaWire ds vs)) (hlen : ds.length = vs.length)
    (hfit : ∀ x ∈ (ds.map FieldDesc.width).zip vs, x.2 < 2 ^ x.1) : fieldsAt B a ds = vs := by
  induction ds generalizing a vs with
  | nil => exact (List.length_eq_zero_iff.mp hlen.symm).symm
  | cons d ds ih =>
    cases vs with
    | nil => cases hlen
    | cons v vs =>
      rw [List.map_cons, List.zip_cons_cons, List.forall_mem_cons] at hfit
      obtain ⟨hv, hvs⟩ := hfit
      obtain ⟨hfirst, hrest⟩ := StandsAt.append h
      rw [length_fieldBits] at hrest
      rw [fieldsAt, hfirst.field_eq hv, ih hrest (Nat.succ.inj hlen) hvs]

theorem StandsAt.words_eq {B : List Byte} {a : Nat} {ud : List Byte} (h : StandsAt B a (userDataWire ud)) :
    udwsAt B a ud.length = ud.map udw :=
  udwsAt_eq_map_udw fun i hi => h i (by rwa [length_userDataWire])

/-! ### Bytes that stand in a buffer -/

theorem streamBit_shift (byte : Nat → Byte) (k q : Nat) :
    streamBit byte (8 * k + q) = streamBit (fun j => byte (k + j)) q := by
  unfold streamBit
  rw [Nat.mul_add_div (by decide), Nat.mul_add_mod]

/-- A field from byte `k` on, with the positions counted from there. -/
theorem fieldAt_shift (byte : Nat → Byte) (k p n : Nat) :
    fieldAt byte (8 * k + p) n = fieldAt (fun j => byte (k + j)) p n := by
  simp only [fieldAt, Nat.add_assoc, streamBit_shift]

/-- A field of a byte string that stands in a buffer from index `k` on (20_memory.md R51). -/
theorem bitsValue_eq_fieldAt_of_bytes {B : List Byte} {byte : Nat → Byte} {k p n : Nat}
    (h : ∀ j < B.length, B[j]? = some (byte (k + j))) (hend : p + n ≤ 8 * B.length) :
    bitsValue B p n = fieldAt byte (8 * k + p) n := by
  rw [fieldAt_shift]
  exact bitsValue_eq_fieldAt _ _ _ _ fun i hi => bitAt_eq_streamBit _ _ _ (h _ (by omega))

end Sys2Proof.Machine
end

section
/-! SUPPORT. What a decode of an ANC payload reads and gives (44_packet_schemas.md R208 to R213): where its messages
start, the message that stands at each start, and the proofs of the statements about the decoders. -/

namespace Sys2Proof.Machine

/-! ### Where the messages start -/

/-- An ANC data packet takes whole 32-bit words (42_computed_fields.md R168), and at least its head of 62 bits. -/
theorem msgBytes_mod_four (d : Nat) : msgBytes d % 4 = 0 := by
  have h := packet_mod_32 d
  have heq := msgBits_eq d
  unfold msgBits at heq
  omega

theorem eight_le_msgBytes (d : Nat) : 8 ≤ msgBytes d := by
  have heq := msgBits_eq d
  unfold msgBits at heq
  omega

theorem messageStart_mod_four (f : Nat → Nat → Nat) (n : Nat) : messageStart f n % 4 = 0 := by
  induction n with
  | zero => rw [messageStart]
  | succ n ih =>
    have := msgBytes_mod_four (f (8 * messageStart f n + 54) 8)
    rw [messageStart]
    omega

theorem messageStart_le_of_le (f : Nat → Nat → Nat) {k n : Nat} (h : k ≤ n) : messageStart f k ≤ messageStart f n :=
  monotone_nat_of_le_succ (f := messageStart f) (fun _ => Nat.le_add_right _ _) h

/-- The message before a start ends there. -/
theorem messageStart_add_msgBytes_le (f : Nat → Nat → Nat) {k n : Nat} (h : k < n) :
    messageStart f k + msgBytes (f (8 * messageStart f k + 54) 8) ≤ messageStart f n :=
  messageStart_le_of_le f (Nat.succ_le_of_lt h)

/-- The counts alone say where the messages start (44_packet_schemas.md R213). -/
theorem messageStart_congr_of_counts {f g : Nat → Nat → Nat} {n : Nat}
    (h : ∀ k < n, g (8 * messageStart f k + 54) 8 = f (8 * messageStart f k + 54) 8) {k : Nat} (hk : k ≤ n) :
    messageStart g k = messageStart f k := by
  induction k with
  | zero => rfl
  | succ k ih => rw [messageStart, messageStart, ih (Nat.le_of_succ_le hk), h k hk]

/-- Payloads whose first `len` bytes have the same fields have their messages at the same starts, as far as these lie
in those bytes. -/
theorem messageStart_congr {f g : Nat → Nat → Nat} {n len : Nat} (h : ∀ p w, p + w ≤ 8 * len → g p w = f p w)
    (hend : messageStart f n ≤ len) {k : Nat} (hk : k ≤ n) : messageStart g k = messageStart f k := by
  refine messageStart_congr_of_counts (fun j hj => h _ _ ?_) hk
  have hbefore := messageStart_add_msgBytes_le f hj
  have hhead := eight_le_msgBytes (f (8 * messageStart f j + 54) 8)
  omega

/-- Such payloads end within those bytes both or neither. -/
theorem messageStart_le_iff {f g : Nat → Nat → Nat} {n len : Nat} (h : ∀ p w, p + w ≤ 8 * len → g p w = f p w) :
    messageStart g n ≤ len ↔ messageStart f n ≤ len := by
  constructor
  · intro hg
    rwa [messageStart_congr (fun p w hpw => (h p w hpw).symm) hg (Nat.le_refl n)]
  · intro hf
    rwa [messageStart_congr h hf (Nat.le_refl n)]

/-! ### The messages -/

theorem getElem_receivedFrom_end (bytes : List Byte) (n a k : Nat) (h : k < (receivedFrom bytes n a).length) :
    (receivedFrom bytes n a)[k] = receivedAt bytes (messagesEnd bytes k a) := by
  induction n generalizing a k with
  | zero => exact absurd h (Nat.not_lt_zero k)
  | succ n ih =>
    cases k with
    | zero => rfl
    | succ k => exact ih _ k (Nat.lt_of_succ_lt_succ h)

/-- Message `k` of a payload stands where the messages before it end. -/
theorem getElem_receivedFrom (bytes : List Byte) (n k : Nat) (h : k < (receivedFrom bytes n 32).length) :
    (receivedFrom bytes n 32)[k] = receivedAt bytes (8 * messageStart (bitsValue bytes) k) := by
  rw [getElem_receivedFrom_end, messagesEnd_eq_messageStart]

/-- The bytes of a payload are its header's and its messages'. -/
theorem messagesEnd_eq_sum (bytes : List Byte) (n a : Nat) :
    messagesEnd bytes n a =
      a + 8 * ((receivedFrom bytes n a).map (fun m => msgBytes m.msg.dataCount)).sum := by
  induction n generalizing a with
  | zero => rfl
  | succ n ih =>
    have hcount : (receivedAt bytes a).msg.dataCount = bitsValue bytes (a + 54) 8 := rfl
    rw [messagesEnd, ih, receivedFrom, List.map_cons, List.sum_cons, hcount, msgBits_eq]
    omega

/-- A received message depends on its own bits only (44_packet_schemas.md R217). -/
theorem SameBits.receivedAt_eq {B C : List Byte} {a : Nat}
    (h : SameBits B C (a + msgBits (bitsValue B (a + 54) 8))) : receivedAt C a = receivedAt B a := by
  generalize hd : bitsValue B (a + 54) 8 = d at h
  have hend : a + 72 + 10 * d ≤ a + msgBits d := by
    unfold msgBits
    omega
  have hcount : bitsValue C (a + 54) 8 = d := (h.field_eq (by omega)).trans hd
  have hwords : udwsAt C (a + 62) d = udwsAt B (a + 62) d := h.words_eq (by omega)
  have field {p w : Nat} (hpw : p + w ≤ a + 62 + 10 * d + 10) : bitsValue C p w = bitsValue B p w :=
    h.field_eq (by omega)
  have hmessage : messageAt C a = messageAt B a := by
    simp only [messageAt, hcount, hd, hwords, AncMessage.mk.injEq, true_and]
    exact ⟨field (by omega), field (by omega), field (by omega), field (by omega), field (by omega),
      field (by omega), field (by omega), field (by omega), field (by omega)⟩
  simp only [receivedAt, hmessage, hcount, hd, hwords]

/-! ### The payload -/

/-- What a decode that succeeds gives: the record that stands in the bytes, and the bytes of the whole payload. -/
theorem decodeAncPacket_eq_ok_iff {bytes : List Byte} {p : DecodedPacket} {n : Nat} :
    decodeAncPacket bytes = .ok (p, n) ↔
      (4 ≤ bytes.length ∧ messageStart (bitsValue bytes) (bitsValue bytes 0 8) ≤ bytes.length) ∧
        p = ⟨bitsValue bytes 0 8, bitsValue bytes 8 2, bitsValue bytes 10 22,
          receivedFrom bytes (bitsValue bytes 0 8) 32⟩ ∧
        n = messageStart (bitsValue bytes) (bitsValue bytes 0 8) := by
  rcases decodeAncPacket_bytes_cases bytes with ⟨hshort, hr⟩ | ⟨hwhole, hr⟩ <;> rw [hr]
  · exact ⟨fun h => (nomatch h), fun h => absurd h.1 hshort⟩
  · rw [Except.ok.injEq, Prod.mk.injEq]
    exact ⟨fun ⟨hp, hn⟩ => ⟨hwhole, hp.symm, hn.symm⟩, fun ⟨_, hp, hn⟩ => ⟨hp.symm, hn.symm⟩⟩

theorem decodeAncPacket_of_not_whole {bytes : List Byte}
    (h : ¬ (4 ≤ bytes.length ∧ messageStart (bitsValue bytes) (bitsValue bytes 0 8) ≤ bytes.length)) :
    decodeAncPacket bytes = .error .truncatedInput := by
  rcases decodeAncPacket_bytes_cases bytes with ⟨-, hr⟩ | ⟨hwhole, -⟩
  · exact hr
  · exact absurd hwhole h

/-- A decode succeeds exactly on the bytes that hold the whole payload their counts announce. -/
theorem exists_decodeAncPacket_eq_ok_iff (bytes : List Byte) :
    (∃ r, decodeAncPacket bytes = .ok r) ↔
      4 ≤ bytes.length ∧ messageStart (bitsValue bytes) (bitsValue bytes 0 8) ≤ bytes.length := by
  constructor
  · rintro ⟨⟨p, n⟩, h⟩
    exact (decodeAncPacket_eq_ok_iff.mp h).1
  · exact fun h => ⟨_, decodeAncPacket_eq_ok_iff.mpr ⟨h, rfl, rfl⟩⟩

/-- A decode reads only the bits of the bytes it consumes (44_packet_schemas.md R217). -/
theorem decodeAncPacket_congr {B C : List Byte} {p : DecodedPacket} {n : Nat} (h : decodeAncPacket B = .ok (p, n))
    (hlen : n ≤ C.length) (hbits : SameBits B C (8 * n)) : decodeAncPacket C = .ok (p, n) := by
  obtain ⟨-, rfl, rfl⟩ := decodeAncPacket_eq_ok_iff.mp h
  have hheader : 4 ≤ messageStart (bitsValue B) (bitsValue B 0 8) := messageStart_le_of_le _ (Nat.zero_le _)
  have field {q w : Nat} (hqw : q + w ≤ 32) : bitsValue C q w = bitsValue B q w := hbits.field_eq (by omega)
  have start {k : Nat} (hk : k ≤ bitsValue B 0 8) :
      messageStart (bitsValue C) k = messageStart (bitsValue B) k :=
    messageStart_congr (fun _ _ hpw => hbits.field_eq hpw) (Nat.le_refl _) hk
  have messages : receivedFrom C (bitsValue B 0 8) 32 = receivedFrom B (bitsValue B 0 8) 32 := by
    refine List.ext_getElem (by simp) fun k hkC hkB => ?_
    rw [length_receivedFrom] at hkB
    rw [getElem_receivedFrom, getElem_receivedFrom, start (Nat.le_of_lt hkB)]
    refine (hbits.mono ?_).receivedAt_eq
    have := messageStart_add_msgBytes_le (bitsValue B) hkB
    rw [msgBits_eq]
    omega
  rw [decodeAncPacket_eq_ok_iff, field (show 0 + 8 ≤ 32 by decide), field (show 8 + 2 ≤ 32 by decide),
    field (show 10 + 22 ≤ 32 by decide), start (Nat.le_refl _), messages]
  exact ⟨⟨hheader.trans hlen, hlen⟩, rfl, rfl⟩

/-! ### The statements about the decoders -/

/-- Settles O39: each message is the one that stands at its start, and its fields are read from there. -/
theorem decodedFieldsStandAtTheirOffsets : Obligations.DecodedFieldsStandAtTheirOffsets := by
  intro bytes f h4 hend
  refine ⟨_, decodeAncPacket_eq_ok_iff.mpr ⟨⟨h4, hend⟩, rfl, rfl⟩, rfl, rfl, rfl, length_receivedFrom _ _ _,
    fun k hk => ?_⟩
  intro m a d
  have hm : m = receivedAt bytes a := getElem_receivedFrom bytes _ k hk
  have hbad : (receivedAt bytes a).advUdwParity = ((List.range (receivedAt bytes a).msg.dataCount).filter
      (fun i => udwMismatch (f (a + 62 + 10 * i) 10))).length := by
    rw [receivedAt, AncMessage.received, udwsAt, List.filter_map, List.length_map]
    rfl
  clear_value m
  subst hm
  exact ⟨rfl, rfl, rfl, rfl, rfl, rfl, rfl, rfl, rfl, List.map_map, rfl, hbad, rfl, rfl⟩

/-- Settles O40: the bytes decide, and each message takes the bytes its count says. -/
theorem decodeConsumesWholePackets : Obligations.DecodeConsumesWholePackets := by
  intro bytes f whole
  refine ⟨decodeAncPacket_of_not_whole, fun h => ⟨_, _, decodeAncPacket_eq_ok_iff.mpr ⟨h, rfl, rfl⟩⟩,
    fun p n h => ?_⟩
  obtain ⟨⟨-, hend⟩, rfl, rfl⟩ := decodeAncPacket_eq_ok_iff.mp h
  refine ⟨rfl, ?_, messageStart_mod_four _ _, hend⟩
  have hstart := messagesEnd_eq_messageStart bytes (bitsValue bytes 0 8)
  rw [messagesEnd_eq_sum] at hstart
  simp only at hstart ⊢
  omega

/-- Settles O41: shorter bytes that decoded would make the whole string decode alike, and consume no more than
themselves. -/
theorem decodeReadsOnlyWhatItConsumes : Obligations.DecodeReadsOnlyWhatItConsumes := by
  intro bytes p n h
  obtain ⟨⟨-, hend⟩, -, rfl⟩ := decodeAncPacket_eq_ok_iff.mp h
  refine ⟨fun rest => decodeAncPacket_congr h ?_ (sameBits_take_append bytes rest hend), fun j hj => ?_⟩
  · rw [List.length_append, List.length_take]
    omega
  · refine decodeAncPacket_of_not_whole fun hwhole => ?_
    obtain ⟨⟨q, m⟩, hq⟩ := (exists_decodeAncPacket_eq_ok_iff _).mpr hwhole
    obtain ⟨⟨-, hm⟩, -, rfl⟩ := decodeAncPacket_eq_ok_iff.mp hq
    rw [List.length_take] at hm
    have hsame := decodeAncPacket_congr hq (by omega) ((sameBits_take bytes j).mono (by omega))
    obtain ⟨-, hn⟩ := Prod.mk.inj (Except.ok.inj (h.symm.trans hsame))
    omega

/-- Settles O42: a decode has one error, and what it stores was read from fields of its own width. -/
theorem decodesNeverOverflow : Obligations.DecodesNeverOverflow := by
  intro bytes
  refine ⟨fun e h => ?_, fun e h => ?_, fun hdr n h => ⟨decodeRtpHeader_fits h, ?_⟩,
    fun p n h => decodeAncPacket_legal h⟩
  · rcases decodeRtpHeader_cases bytes with ⟨-, hr⟩ | ⟨-, hr⟩ <;> cases hr.symm.trans h
    rfl
  · rcases decodeAncPacket_bytes_cases bytes with ⟨-, hr⟩ | ⟨-, hr⟩ <;> cases hr.symm.trans h
    rfl
  · rcases decodeRtpHeader_cases bytes with ⟨-, hr⟩ | ⟨-, hr⟩ <;> cases hr.symm.trans h
    rfl

/-- Settles O53: the counts alone say where the messages start, and the length alone whether they are all there. -/
theorem mismatchesNeverStopADecode : Obligations.MismatchesNeverStopADecode := by
  intro B C hlen hcount hcounts
  have start {k : Nat} (hk : k ≤ bitsValue B 0 8) :
      messageStart (bitsValue C) k = messageStart (bitsValue B) k :=
    messageStart_congr_of_counts (fun j hj => (hcounts j hj).symm) hk
  constructor
  · rw [exists_decodeAncPacket_eq_ok_iff, exists_decodeAncPacket_eq_ok_iff, ← hlen, ← hcount, start (Nat.le_refl _)]
  · intro p n q m hB hC
    obtain ⟨-, rfl, rfl⟩ := decodeAncPacket_eq_ok_iff.mp hB
    obtain ⟨-, rfl, rfl⟩ := decodeAncPacket_eq_ok_iff.mp hC
    rw [← hcount, start (Nat.le_refl _)]
    refine ⟨rfl, by simp, List.ext_getElem (by simp) fun k hk _ => ?_⟩
    rw [List.length_map, length_receivedFrom] at hk
    rw [List.getElem_map, List.getElem_map, getElem_receivedFrom, getElem_receivedFrom, start (Nat.le_of_lt hk)]
    exact hcounts k hk

end Sys2Proof.Machine
end

section
/-! SUPPORT. The round trips of the record codecs (44_packet_schemas.md R201, R203, R208 to R213, R221): the fields of a
record are read where its encoding has put their bits. -/

namespace Sys2Proof.Machine

/-! ### The RTP header -/

/-- The RTP header whose fields stand at the bit offsets of 30_encoding.md R83. -/
def RtpHeader.ofFields (f : Nat → Nat → Nat) : RtpHeader :=
  ⟨f 0 2, f 2 1, f 3 1, f 4 4, f 8 1, f 9 7, f 16 16, f 32 32, f 64 32, f 96 16, f 112 16⟩

theorem RtpHeader.ofFields_congr {f g : Nat → Nat → Nat} (h : ∀ p w, p + w ≤ 128 → f p w = g p w) :
    RtpHeader.ofFields f = RtpHeader.ofFields g := by
  simp only [RtpHeader.ofFields, RtpHeader.mk.injEq]
  refine ⟨?_, ?_, ?_, ?_, ?_, ?_, ?_, ?_, ?_, ?_, ?_⟩
  all_goals exact h _ _ (by decide)

theorem decodeRtpHeader_of_le {bytes : List Byte} (h : 16 ≤ bytes.length) :
    decodeRtpHeader bytes = .ok (RtpHeader.ofFields (bitsValue bytes), 16) := by
  rcases decodeRtpHeader_cases bytes with ⟨hshort, -⟩ | ⟨-, hr⟩
  · omega
  · exact hr

theorem decodeRtpHeader_of_lt {bytes : List Byte} (h : bytes.length < 16) :
    decodeRtpHeader bytes = .error .truncatedInput := by
  rcases decodeRtpHeader_cases bytes with ⟨-, hr⟩ | ⟨hlong, -⟩
  · exact hr
  · omega

theorem encodeRtpHeader_of_not_fits {h : RtpHeader} (hfits : ¬ h.fits) :
    encodeRtpHeader h = .error .fieldOverflow := by
  rcases encodeRtpHeader_cases h with ⟨-, hr⟩ | ⟨hf, -⟩
  · exact hr
  · exact absurd hf hfits

/-- The encoding of an RTP header holds its fields at their bit offsets (30_encoding.md R83). -/
theorem encodeRtpHeader_of_fits {h : RtpHeader} (hfits : h.fits) :
    ∃ bytes, encodeRtpHeader h = .ok bytes ∧ bytes.length = 16 ∧ RtpHeader.ofFields (bitsValue bytes) = h := by
  rcases encodeRtpHeader_cases h with ⟨hf, -⟩ | ⟨-, bytes, hr, hlen, hbits⟩
  · exact absurd hfits hf
  · have hstands : StandsAt bytes 0 (schemaWire rtpSchema h.values) := by
      intro i hi
      rw [Nat.zero_add]
      exact hbits i hi
    have hfields : fieldsAt bytes 0 rtpSchema = h.values := hstands.fields_eq rfl hfits
    exact ⟨bytes, hr, hlen, congrArg RtpHeader.ofValues hfields⟩

/-! ### One message -/

/-- The plain fields of a message and its computed words fit the widths they are written with. -/
theorem AncMessage.encodable.headFits {m : AncMessage} (h : m.encodable) :
    ∀ x ∈ (messageHeadSchema.map FieldDesc.width).zip m.headValues, x.2 < 2 ^ x.1 :=
  (m.headFits_iff h.2).mpr h.1

/-- Where the bits of a message stand, the record read is the message with its derived fields recomputed. -/
theorem StandsAt.messageAt_eq {bytes : List Byte} {a : Nat} {m : AncMessage} (h : StandsAt bytes a m.wire)
    (hm : m.encodable) :
    messageAt bytes a = m.canonical.msg ∧ udwsAt bytes (a + 62) m.userData.length = m.userData.map udw := by
  rw [AncMessage.wire] at h
  obtain ⟨h, -⟩ := StandsAt.append h
  obtain ⟨h, hchecksum⟩ := StandsAt.append h
  obtain ⟨hhead, hdata⟩ := StandsAt.append h
  have hlen : (schemaWire messageHeadSchema m.headValues).length = 62 := rfl
  rw [List.length_append, length_userDataWire, hlen, ← Nat.add_assoc] at hchecksum
  rw [hlen] at hdata
  have hfields : fieldsAt bytes a messageHeadSchema = m.headValues := hhead.fields_eq rfl hm.headFits
  have hwords : udwsAt bytes (a + 62) m.userData.length = m.userData.map udw := hdata.words_eq
  have hsum := hchecksum.field_eq (checksumWord_lt _ _ _ _)
  have hbytes : (m.userData.map udw).map (BitVec.ofNat 8) = m.userData := by simp [Function.comp_def]
  have hcount : bitsValue bytes (a + 54) 8 = m.userData.length := congrArg (fun vs => vs.getD 8 0) hfields
  refine ⟨?_, hwords⟩
  calc messageAt bytes a
      = AncMessage.ofParts (fieldsAt bytes a messageHeadSchema)
          ((udwsAt bytes (a + 62) (bitsValue bytes (a + 54) 8)).map (BitVec.ofNat 8))
          (bitsValue bytes (a + 62 + 10 * bitsValue bytes (a + 54) 8) 10) := rfl
    _ = m.canonical.msg := by
      rw [hfields, hcount, hwords, hbytes, hsum]
      rfl

/-- The record that a decode gives for an encoded message verifies (42_computed_fields.md R169, R173). -/
theorem AncMessage.encodable.verifyMessage_canonical {m : AncMessage} (h : m.encodable) :
    verifyMessage m.canonical.msg = true := by
  obtain ⟨-, hlen⟩ := h
  simp [verifyMessage, AncMessage.canonical, hlen]

/-- Where the bits of a message stand, it is received with every advisory clear (44_packet_schemas.md R221). -/
theorem StandsAt.receivedAt_eq {bytes : List Byte} {a : Nat} {m : AncMessage} (h : StandsAt bytes a m.wire)
    (hm : m.encodable) : receivedAt bytes a = m.canonical := by
  obtain ⟨hmessage, hwords⟩ := h.messageAt_eq hm
  have hcount : bitsValue bytes (a + 54) 8 = m.userData.length := congrArg AncMessage.dataCount hmessage
  have hbad : ((m.userData.map udw).filter udwMismatch).length = 0 := by simp
  have hparity : (m.canonical.msg.dataCountParity != parityPair m.canonical.msg.dataCount) = false :=
    bne_self_eq_false _
  rw [receivedAt, hcount, hwords, hbad, hmessage, AncMessage.received, hparity, hm.verifyMessage_canonical]
  rfl

/-! ### The payload -/

/-- The byte at which the encoder puts message `k` (44_packet_schemas.md R209, R213). -/
def AncPacket.messageOffset (p : AncPacket) (k : Nat) : Nat :=
  4 + ((p.messages.take k).map (fun m => msgBytes m.userData.length)).sum

theorem AncPacket.messageOffset_succ (p : AncPacket) {k : Nat} (hk : k < p.messages.length) :
    p.messageOffset (k + 1) = p.messageOffset k + msgBytes p.messages[k].userData.length := by
  simp only [AncPacket.messageOffset, List.map_take]
  rw [List.sum_take_succ _ _ (by rwa [List.length_map]), List.getElem_map, Nat.add_assoc]

theorem AncPacket.messageOffset_length (p : AncPacket) : p.messageOffset p.messages.length = p.byteLength := by
  rw [AncPacket.messageOffset, List.take_length, AncPacket.byteLength]

theorem encodeAncPacket_of_not_encodable {p : AncPacket} (henc : ¬ p.encodable) :
    encodeAncPacket p = .error .fieldOverflow := by
  rcases encodeAncPacket_cases p with ⟨-, hr⟩ | ⟨he, -⟩
  · exact hr
  · exact absurd he henc

theorem encodeAncPacket_of_encodable {p : AncPacket} (henc : p.encodable) :
    ∃ bytes, encodeAncPacket p = .ok bytes ∧ bytes.length = p.byteLength := by
  rcases encodeAncPacket_cases p with ⟨he, -⟩ | ⟨-, bytes, hr, hlen, -⟩
  · exact absurd henc he
  · exact ⟨bytes, hr, hlen⟩

/-- The encoding of a payload, as the bits of its header and of each of its messages. -/
theorem standsAt_encodeAncPacket {p : AncPacket} {bytes : List Byte} (h : encodeAncPacket p = .ok bytes) :
    p.encodable ∧ bytes.length = p.byteLength ∧
      StandsAt bytes 0 (schemaWire ancHeaderSchema [p.messages.length, p.field, p.reserved]) ∧
      ∀ k, ∀ hk : k < p.messages.length,
        StandsAt bytes (8 * p.messageOffset k) p.messages[k].wire := by
  rcases encodeAncPacket_cases p with ⟨-, hr⟩ | ⟨henc, B, hr, hlen, hbits⟩
  · cases hr.symm.trans h
  · cases hr.symm.trans h
    refine ⟨henc, hlen, ?_, fun k hk i hi => ?_⟩
    · have hwire : StandsAt bytes 0 p.wire := by
        intro i hi
        rw [Nat.zero_add]
        exact hbits i (by rwa [← p.length_wire])
      exact (StandsAt.append hwire).1
    · rw [AncMessage.length_wire] at hi
      rw [AncPacket.messageOffset, Nat.mul_add]
      exact bitAt_encodeAncPacket h k hk hi

/-- The counts in an encoded payload say where its messages were put (44_packet_schemas.md R213). -/
theorem messageStart_of_encodeAncPacket {p : AncPacket} {bytes : List Byte} (h : encodeAncPacket p = .ok bytes)
    {k : Nat} (hk : k ≤ p.messages.length) :
    messageStart (bitsValue bytes) k = p.messageOffset k := by
  obtain ⟨⟨-, -, -, hms⟩, -, -, hstands⟩ := standsAt_encodeAncPacket h
  induction k with
  | zero => rfl
  | succ k ih =>
    have hmessage := (hstands k hk).receivedAt_eq (hms _ (List.getElem_mem hk))
    have hcount : bitsValue bytes (8 * p.messageOffset k + 54) 8 = p.messages[k].userData.length :=
      congrArg (fun m => m.msg.dataCount) hmessage
    rw [messageStart, ih (Nat.le_of_succ_le hk), hcount, p.messageOffset_succ hk]

/-- The decoder gives the record of an encoded payload back (44_packet_schemas.md R221). -/
theorem decodeAncPacket_of_encodeAncPacket {p : AncPacket} {bytes : List Byte} (h : encodeAncPacket p = .ok bytes) :
    decodeAncPacket bytes = .ok (p.canonical, p.byteLength) := by
  obtain ⟨⟨hcount, hfield, hreserved, hms⟩, hlen, hheader, hstands⟩ := standsAt_encodeAncPacket h
  have hfields : fieldsAt bytes 0 ancHeaderSchema = [p.messages.length, p.field, p.reserved] := by
    refine hheader.fields_eq rfl ?_
    simp only [ancHeaderSchema, List.map_cons, List.map_nil, List.zip_cons_cons, List.zip_nil_left,
      List.forall_mem_cons]
    exact ⟨Nat.lt_succ_of_le hcount, hfield, hreserved, nofun⟩
  obtain ⟨hn, hf, hr⟩ : bitsValue bytes 0 8 = p.messages.length ∧ bitsValue bytes 8 2 = p.field ∧
      bitsValue bytes 10 22 = p.reserved := by
    simpa only [fieldsAt, ancHeaderSchema, List.cons.injEq, and_true] using hfields
  have hend : messageStart (bitsValue bytes) p.messages.length = p.byteLength := by
    rw [messageStart_of_encodeAncPacket h (Nat.le_refl _), p.messageOffset_length]
  have hreceived : receivedFrom bytes p.messages.length 32 = p.messages.map AncMessage.canonical := by
    refine List.ext_getElem (by simp) fun k hk _ => ?_
    rw [length_receivedFrom] at hk
    rw [getElem_receivedFrom, messageStart_of_encodeAncPacket h (Nat.le_of_lt hk), List.getElem_map]
    exact (hstands k hk).receivedAt_eq (hms _ (List.getElem_mem hk))
  rw [decodeAncPacket_eq_ok_iff, hn, hf, hr, hend, hreceived, hlen]
  exact ⟨⟨Nat.le_add_right _ _, Nat.le_refl _⟩, rfl, rfl⟩

end Sys2Proof.Machine
end

section
/-! SUPPORT. The five packet commands (44_packet_schemas.md R202, R204, R211, R214, R216): the input a decode takes at
ARG, the output an encode places at ARG, and the proofs of the statements about them. -/

namespace Sys2Proof.Machine

/-! ### The input at ARG -/

/-- The bytes of INBUF from index `k` on. -/
theorem State.getElem?_drop_inBytes (s : State) {k j : Nat} (h : k + j < s.inlen) :
    (s.inBytes.drop k)[j]? = some (s.inbufByte (k + j)) := by
  rw [List.getElem?_drop, s.getElem?_inBytes _ h]

theorem State.length_drop_inBytes (s : State) (k : Nat) : (s.inBytes.drop k).length = s.inlen - k := by
  rw [List.length_drop, s.length_inBytes]

/-- A field of the input a decode takes at `k`, as it stands in INBUF. -/
theorem State.bitsValue_drop_inBytes (s : State) {k p w : Nat} (h : p + w ≤ 8 * (s.inlen - k)) :
    bitsValue (s.inBytes.drop k) p w = fieldAt s.inbufByte (8 * k + p) w := by
  rw [← s.length_drop_inBytes] at h
  refine bitsValue_eq_fieldAt_of_bytes (fun j hj => s.getElem?_drop_inBytes ?_) h
  rw [s.length_drop_inBytes] at hj
  omega

/-- The input that holds the bytes `bytes` from index `k` on begins with their bits. -/
theorem State.sameBits_drop_inBytes (s : State) {k : Nat} {bytes : List Byte} (hend : k + bytes.length ≤ s.inlen)
    (h : ∀ j < bytes.length, bytes[j]? = some (s.inbufByte (k + j))) :
    SameBits bytes (s.inBytes.drop k) (8 * bytes.length) :=
  sameBits_of_getElem? fun j hj => by rw [h j hj, s.getElem?_drop_inBytes (by omega)]

/-! ### The decodes -/

/-- DECRTP on 16 bytes or more. -/
theorem exec_decrtp_of_le {s : State} (h : s.arg.toNat + 16 ≤ s.inlen) :
    exec .decrtp s = .next { s with
      recOutRtp := some (RtpHeader.ofFields (bitsValue (s.inBytes.drop s.arg.toNat)))
      result := 16
      status := 0 } := by
  have hdec := decodeRtpHeader_of_le (bytes := s.inBytes.drop s.arg.toNat) (by rw [s.length_drop_inBytes]; omega)
  rcases execDecrtp_cases s with ⟨hk, -⟩ | ⟨e, -, he, -⟩ | ⟨hdr, n, -, hn, hx⟩
  · omega
  · cases hdec.symm.trans he
  · cases hdec.symm.trans hn
    exact hx.trans (congrArg Host.Outcome.next (State.succeed_clear _))

/-- Settles O36: the header's fields lie in the 16 bytes, which the command's checks count. -/
theorem decrtpReadsTheHeaderFields : Obligations.DecrtpReadsTheHeaderFields := by
  refine ⟨decode_encode .decrtp, fun s => ?_⟩
  intro k f
  refine ⟨fun hk => ?_, fun hk hshort => ?_, fun hend => ?_⟩
  · rcases execDecrtp_cases s with ⟨-, hx⟩ | ⟨e, hle, -⟩ | ⟨hdr, n, hle, -⟩
    · exact next_status_of_raise hx
    all_goals exact absurd hk (Nat.not_lt.mpr hle)
  · have hdec := decodeRtpHeader_of_lt (bytes := s.inBytes.drop k) (by rw [s.length_drop_inBytes]; omega)
    rcases execDecrtp_cases s with ⟨hlt, -⟩ | ⟨e, -, he, hx⟩ | ⟨hdr, n, -, hn, -⟩
    · exact absurd hk (Nat.not_le.mpr hlt)
    · cases hdec.symm.trans he
      exact next_status_of_raise hx
    · cases hdec.symm.trans hn
  · have hheader : RtpHeader.ofFields (bitsValue (s.inBytes.drop k)) = RtpHeader.ofFields f :=
      RtpHeader.ofFields_congr fun p w hpw => s.bitsValue_drop_inBytes (by omega)
    rw [exec_decrtp_of_le hend, hheader]
    rfl

/-- DECANC on bytes that decode. -/
theorem exec_decanc_of_ok {s : State} {p : DecodedPacket} {n : Nat} (hk : s.arg.toNat ≤ s.inlen)
    (h : decodeAncPacket (s.inBytes.drop s.arg.toNat) = .ok (p, n)) :
    exec .decanc s = .next (State.succeed { s with recOutAnc := some p, result := BitVec.ofNat 32 n }
      p.advisories) := by
  rcases execDecanc_cases s with ⟨hlt, -⟩ | ⟨e, -, he, -⟩ | ⟨q, m, -, hq, hx⟩
  · omega
  · cases h.symm.trans he
  · cases h.symm.trans hq
    exact hx

/-- The parity advisory of a payload says that some message has a mismatch (10_state.md R40). -/
theorem DecodedPacket.advisories_parity_iff (p : DecodedPacket) :
    p.advisories.parity = true ↔ ∃ m ∈ p.messages, m.advDcParity = true ∨ 0 < m.advUdwParity := by
  simp [DecodedPacket.advisories, DecodedMessage.parityMismatch]

theorem DecodedPacket.advisories_checksum_iff (p : DecodedPacket) :
    p.advisories.checksum = true ↔ ∃ m ∈ p.messages, m.advChecksum = true :=
  List.any_eq_true

/-- The value of `w` bits at stream position `p` of the input at `k`, whether INBUF's bytes there are input or not. -/
def State.packetField (s : State) (k p w : Nat) : Nat := fieldAt s.inbufByte (8 * k + p) w

/-- All that decoding the input at `k` can answer: it fails exactly when INLEN comes before the end of the payload that
the counts in INBUF announce (44_packet_schemas.md R211). -/
theorem State.decodeAncPacket_drop_inBytes_cases (s : State) {k : Nat} (hk : k ≤ s.inlen) :
    (¬ (k + 4 ≤ s.inlen ∧ k + messageStart (s.packetField k) (s.packetField k 0 8) ≤ s.inlen) ∧
        decodeAncPacket (s.inBytes.drop k) = .error .truncatedInput) ∨
      ((k + 4 ≤ s.inlen ∧ k + messageStart (s.packetField k) (s.packetField k 0 8) ≤ s.inlen) ∧
        ∃ p, decodeAncPacket (s.inBytes.drop k) =
          .ok (p, messageStart (s.packetField k) (s.packetField k 0 8))) := by
  have hlen := s.length_drop_inBytes k
  have field (p w : Nat) (hpw : p + w ≤ 8 * (s.inlen - k)) :
      bitsValue (s.inBytes.drop k) p w = s.packetField k p w := s.bitsValue_drop_inBytes hpw
  have hends := messageStart_le_iff (n := s.packetField k 0 8) field
  rcases decodeAncPacket_bytes_cases (s.inBytes.drop k) with ⟨hshort, hr⟩ | ⟨⟨h4, hend⟩, hr⟩
  · refine .inl ⟨fun ⟨h4, hend⟩ => hshort ?_, hr⟩
    rw [field 0 8 (by omega), hlen, hends]
    omega
  · rw [hlen] at h4 hend
    rw [field 0 8 (by omega)] at hend hr
    rw [messageStart_congr field (hends.mp hend) (Nat.le_refl _)] at hr
    have := hends.mp hend
    exact .inr ⟨by omega, _, hr⟩

/-- Settles O38: INBUF's own counts say where the payload ends, and RESULT and STATUS are those of the record. -/
theorem decancStoresTheDecodedPayload : Obligations.DecancStoresTheDecodedPayload := by
  refine ⟨decode_encode .decanc, fun s => ?_⟩
  intro k f n whole
  have hcases (hk : k ≤ s.inlen) : (¬ whole ∧ decodeAncPacket (s.inBytes.drop k) = .error .truncatedInput) ∨
      (whole ∧ ∃ p, decodeAncPacket (s.inBytes.drop k) = .ok (p, n)) := s.decodeAncPacket_drop_inBytes_cases hk
  refine ⟨fun hk => ?_, fun hk hshort => ?_, fun hwhole => ?_⟩
  · rcases execDecanc_cases s with ⟨-, hx⟩ | ⟨e, hle, -⟩ | ⟨p, m, hle, -⟩
    · exact next_status_of_raise hx
    all_goals exact absurd hk (Nat.not_lt.mpr hle)
  · rcases hcases hk with ⟨-, hdec⟩ | ⟨hwhole, -⟩
    · rcases execDecanc_cases s with ⟨hlt, -⟩ | ⟨e, -, he, hx⟩ | ⟨p, m, -, hp, -⟩
      · exact absurd hk (Nat.not_le.mpr hlt)
      · cases hdec.symm.trans he
        exact next_status_of_raise hx
      · cases hdec.symm.trans hp
    · exact absurd hwhole hshort
  · obtain ⟨h4, hend⟩ := hwhole
    have hk : k ≤ s.inlen := by omega
    rcases hcases hk with ⟨hshort, -⟩ | ⟨-, p, hdec⟩
    · exact absurd ⟨h4, hend⟩ hshort
    · refine ⟨p, _, hdec, exec_decanc_of_ok hk hdec, rfl, fun hlegal => ?_, statusErr_statusWord _ _, ?_, ?_⟩
      · have hcap := hlegal.le_maxCap.1
        exact toNat_register_of_le (by omega)
      · rw [State.succeed_status, statusAdvParity_statusWord, p.advisories_parity_iff]
      · rw [State.succeed_status, statusAdvChecksum_statusWord, p.advisories_checksum_iff]

/-! ### The encodes -/

@[simp] theorem State.succeed_outbufCell (s : State) (a : Advisories) (k : Nat) :
    (s.succeed a).outbufCell k = s.outbufCell k := rfl

@[simp] theorem State.succeed_outbufByte (s : State) (a : Advisories) (k : Nat) :
    (s.succeed a).outbufByte k = s.outbufByte k := rfl

/-- `t` is `s` after a packet encode placed the bytes `bytes` at index `k` of OUTBUF (44_packet_schemas.md R204,
R214). -/
structure State.Placed (s t : State) (k : Nat) (bytes : List Byte) : Prop where
  frame : t = { s with
    outbuf := t.outbuf, outlen := k + bytes.length, result := BitVec.ofNat 32 bytes.length, status := 0
    outDraws := t.outDraws
    mode := if s.mode = .write then .idle else s.mode
    pos := if s.mode = .write then 0 else s.pos }
  stands : ∀ j < bytes.length, bytes[j]? = some (t.outbufByte (k + j))
  before : ∀ x < k, t.outbufByte x = s.outbufByte x
  outside : ∀ x, (x < k ∨ k + bytes.length ≤ x) → t.outbufCell x = s.outbufCell x

theorem State.Placed.status {s t : State} {k : Nat} {bytes : List Byte} (h : s.Placed t k bytes) : t.status = 0 := by
  rw [h.frame]

theorem State.Placed.result {s t : State} {k : Nat} {bytes : List Byte} (h : s.Placed t k bytes) :
    t.result = BitVec.ofNat 32 bytes.length := by
  rw [h.frame]

/-- A placed output fits the 32 bits of RESULT. -/
theorem State.Placed.toNat_result {s t : State} {k : Nat} {bytes : List Byte} (h : s.Placed t k bytes)
    (hroom : k + bytes.length ≤ Config.outCap) : t.result.toNat = bytes.length := by
  have hcap := outCap_bounds.2
  rw [h.result]
  exact toNat_register_of_le (by omega)

theorem State.placed_commitPacket (s : State) {k : Nat} (hk : k ≤ s.outlen) (bytes : List Byte) :
    s.Placed ((s.commitPacket k bytes).succeed .clear) k bytes where
  frame := State.succeed_clear _
  stands j hj := by
    rw [State.succeed_outbufByte, State.outbufByte_of_lt _ _ (Nat.add_lt_add_left hj k), s.outbufCell_commitPacket,
      if_pos (Nat.le_add_right k j), Nat.add_sub_cancel_left, List.getElem?_eq_getElem hj, Option.getD_some]
  before x hx := by
    rw [State.succeed_outbufByte, State.outbufByte_of_lt _ _ (Nat.lt_add_right _ hx), s.outbufCell_commitPacket,
      if_neg (Nat.not_le.mpr hx), s.outbufByte_of_lt _ (Nat.lt_of_lt_of_le hx hk)]
  outside x hx := by
    rw [State.succeed_outbufCell, s.outbufCell_commitPacket]
    split_ifs with hle
    · rw [List.getElem?_eq_none (by omega), Option.getD_none]
    · rfl

/-! The outcomes of an encode whose body placed `r`, for both packet encodes. -/

section
variable {s : State} {r : Except CmdError (List Byte)}

theorem State.complete_placePacket_of_lt (hk : s.outlen < s.arg.toNat) :
    s.complete (s.placePacket r) = .next (s.raise .seekOutOfRange) := by
  rcases s.complete_placePacket_cases r with ⟨-, hx⟩ | ⟨e, hle, -⟩ | ⟨b, hle, -⟩ | ⟨b, hle, -⟩
  · exact hx
  all_goals omega

theorem State.complete_placePacket_of_error {e : CmdError} (hk : s.arg.toNat ≤ s.outlen) (hr : r = .error e) :
    s.complete (s.placePacket r) = .next (s.raise e) := by
  rcases s.complete_placePacket_cases r with ⟨hlt, -⟩ | ⟨e', -, he, hx⟩ | ⟨b, -, hb, -⟩ | ⟨b, -, hb, -⟩
  · omega
  · cases hr.symm.trans he
    exact hx
  all_goals cases hr.symm.trans hb

theorem State.complete_placePacket_of_full {bytes : List Byte} (hk : s.arg.toNat ≤ s.outlen) (hr : r = .ok bytes)
    (hfull : Config.outCap < s.arg.toNat + bytes.length) :
    s.complete (s.placePacket r) = .next (s.raise .outputFull) := by
  rcases s.complete_placePacket_cases r with ⟨hlt, -⟩ | ⟨e, -, he, -⟩ | ⟨b, -, -, -, hx⟩ | ⟨b, -, hb, hroom, -⟩
  · omega
  · cases hr.symm.trans he
  · exact hx
  · cases hr.symm.trans hb
    omega

theorem State.complete_placePacket_of_room {bytes : List Byte} (hk : s.arg.toNat ≤ s.outlen) (hr : r = .ok bytes)
    (hroom : s.arg.toNat + bytes.length ≤ Config.outCap) :
    ∃ t, s.complete (s.placePacket r) = .next t ∧ s.Placed t s.arg.toNat bytes := by
  rcases s.complete_placePacket_cases r with ⟨hlt, -⟩ | ⟨e, -, he, -⟩ | ⟨b, -, hb, hfull, -⟩ | ⟨b, -, hb, -, hx⟩
  · omega
  · cases hr.symm.trans he
  · cases hr.symm.trans hb
    omega
  · cases hr.symm.trans hb
    exact ⟨_, hx, s.placed_commitPacket hk bytes⟩

end

/-- Settles O37: the 16 bytes hold the header's fields, and the command places them at ARG. -/
theorem encrtpWritesTheHeaderFields : Obligations.EncrtpWritesTheHeaderFields := by
  refine ⟨decode_encode .encrtp, fun s => ?_⟩
  intro k h
  refine ⟨fun hk => next_status_of_raise (State.complete_placePacket_of_lt hk), fun hk hfits => ?_,
    fun hk hfits hfull => ?_, fun hk hfits hroom => ?_⟩
  · exact next_status_of_raise (State.complete_placePacket_of_error hk (encodeRtpHeader_of_not_fits hfits))
  · obtain ⟨bytes, henc, hlen, -⟩ := encodeRtpHeader_of_fits hfits
    exact next_status_of_raise (State.complete_placePacket_of_full hk henc (by rwa [hlen]))
  · obtain ⟨bytes, henc, hlen, hheader⟩ := encodeRtpHeader_of_fits hfits
    obtain ⟨t, hx, hplaced⟩ := State.complete_placePacket_of_room hk henc (by rwa [hlen])
    obtain ⟨hframe, hstands, hbefore, houtside⟩ := hplaced
    have hfields : RtpHeader.ofFields (bitsValue bytes) =
        RtpHeader.ofFields (fun p n => fieldAt t.outbufByte (8 * k + p) n) :=
      RtpHeader.ofFields_congr fun p w hpw => bitsValue_eq_fieldAt_of_bytes hstands (by omega)
    rw [hlen] at hframe houtside
    exact ⟨t, hx, hframe, hheader.symm.trans hfields, hbefore, houtside⟩

/-- Settles O43: the encoding's own conditions are `encodable`, its length is `byteLength`, and the command places it at
ARG. -/
theorem encancPlacesTheEncodedPayload : Obligations.EncancPlacesTheEncodedPayload := by
  refine ⟨decode_encode .encanc, fun s => ?_⟩
  intro k n
  refine ⟨fun hk => next_status_of_raise (State.complete_placePacket_of_lt hk), fun hk henc => ?_,
    fun hk henc hfull => ?_, fun hk henc hroom => ?_⟩
  · exact next_status_of_raise (State.complete_placePacket_of_error hk (encodeAncPacket_of_not_encodable henc))
  · obtain ⟨bytes, hok, hlen⟩ := encodeAncPacket_of_encodable henc
    exact next_status_of_raise (State.complete_placePacket_of_full hk hok (by rwa [hlen]))
  · obtain ⟨bytes, hok, hlen⟩ := encodeAncPacket_of_encodable henc
    obtain ⟨t, hx, hplaced⟩ := State.complete_placePacket_of_room hk hok (by rwa [hlen])
    have hresult := hplaced.toNat_result (by rwa [hlen])
    obtain ⟨hframe, hstands, hbefore, houtside⟩ := hplaced
    rw [hlen] at hframe hstands houtside hresult
    refine ⟨t, bytes, hx, hok, hlen, ?_, hresult, hstands, hbefore, houtside⟩
    rw [hframe]

/-! ### Round trips -/

/-- An input that holds a placed output, at any index, begins with the bits placed. -/
theorem State.Placed.sameBits {s t u : State} {k i : Nat} {bytes : List Byte} (h : s.Placed t k bytes)
    (hend : i + bytes.length ≤ u.inlen)
    (hin : ∀ j < bytes.length, u.inbufByte (i + j) = t.outbufByte (k + j)) :
    SameBits bytes (u.inBytes.drop i) (8 * bytes.length) :=
  u.sameBits_drop_inBytes hend fun j hj => by rw [h.stands j hj, hin j hj]

/-- Settles O49: the input holds the bits of the encoding, where the header's fields stand. -/
theorem encrtpThenDecrtpGivesTheHeaderBack : Obligations.EncrtpThenDecrtpGivesTheHeaderBack := by
  intro s hk hfits hroom
  obtain ⟨bytes, henc, hlen, hheader⟩ := encodeRtpHeader_of_fits hfits
  obtain ⟨t, hx, hplaced⟩ := State.complete_placePacket_of_room hk henc (by rwa [hlen])
  refine ⟨t, hx, hplaced.status, fun u hend hin => ?_⟩
  have hsame := hplaced.sameBits (by rwa [hlen]) (by rwa [hlen])
  have hread : RtpHeader.ofFields (bitsValue (u.inBytes.drop u.arg.toNat)) = s.recInRtp :=
    (RtpHeader.ofFields_congr fun p w hpw => hsame.field_eq (by omega)).trans hheader
  rw [exec_decrtp_of_le hend, hread]

theorem AncPacket.advisories_canonical (p : AncPacket) : p.canonical.advisories = .clear := by
  simp [AncPacket.canonical, DecodedPacket.advisories, DecodedMessage.parityMismatch, AncMessage.canonical,
    Advisories.clear]

/-- Settles O48: the input begins with the bits of the encoding, all that the decode reads, and these decode to the
canonical record. -/
theorem encancThenDecancGivesTheRecordBack : Obligations.EncancThenDecancGivesTheRecordBack := by
  intro s hk henc hroom
  obtain ⟨bytes, hok, hlen⟩ := encodeAncPacket_of_encodable henc
  obtain ⟨t, hx, hplaced⟩ := State.complete_placePacket_of_room hk hok (by rwa [hlen])
  refine ⟨t, hx, hplaced.status, (hplaced.toNat_result (by rwa [hlen])).trans hlen, fun u hend hin => ?_,
    fun m hm => ?_⟩
  · have hsame := hplaced.sameBits (by rwa [hlen]) (by rwa [hlen])
    rw [hlen] at hsame
    have hdec := decodeAncPacket_congr (decodeAncPacket_of_encodeAncPacket hok)
      (by rw [u.length_drop_inBytes]; omega) hsame
    rw [exec_decanc_of_ok (by omega) hdec, AncPacket.advisories_canonical, State.succeed_clear, hplaced.result, hlen]
  · obtain ⟨-, -, -, hms⟩ := henc
    obtain ⟨m, hmem, rfl⟩ := List.mem_map.mp hm
    exact ⟨(hms m hmem).verifyMessage_canonical, rfl, rfl, rfl⟩

/-! ### The empty payload -/

/-- A payload with a count of 0 ends after its header (44_packet_schemas.md R218). -/
theorem decodeAncPacket_of_count_zero {bytes : List Byte} (hlen : 4 ≤ bytes.length) (hzero : bytes[0]? = some 0) :
    ∃ p, decodeAncPacket bytes = .ok (p, 4) ∧ p.ancCount = 0 ∧ p.messages = [] ∧ p.advisories = .clear := by
  have hcount : bitsValue bytes 0 8 = 0 := by
    refine bitsValue_eq _ 0 8 0 (by decide) fun i hi => ?_
    rw [bitAt, Nat.zero_add, Nat.div_eq_of_lt hi, List.getD_eq_getElem?_getD, hzero, Nat.zero_testBit]
    exact BitVec.getLsbD_zero
  have hend : messageStart (bitsValue bytes) (bitsValue bytes 0 8) = 4 := by rw [hcount, messageStart]
  refine ⟨_, decodeAncPacket_eq_ok_iff.mpr ⟨⟨hlen, hend.trans_le hlen⟩, rfl, hend.symm⟩, hcount, ?_⟩
  rw [hcount]
  exact ⟨rfl, rfl⟩

/-- Settles O46: with a count of 0 the payload ends after its header, and an empty list adds nothing to it. -/
theorem emptyPayloadIsFourBytes : Obligations.EmptyPayloadIsFourBytes := by
  constructor
  · intro s hend hzero
    obtain ⟨p, hdec, hcount, hmessages, hclear⟩ := decodeAncPacket_of_count_zero
      (bytes := s.inBytes.drop s.arg.toNat) (by rw [s.length_drop_inBytes]; omega)
      (by rw [s.getElem?_drop_inBytes (by omega), Nat.add_zero, hzero])
    refine ⟨_, p, exec_decanc_of_ok (by omega) hdec, ?_, hcount, hmessages⟩
    rw [hclear, State.succeed_clear]
    rfl
  · intro s hempty henc hk hroom
    obtain ⟨bytes, hok, hlen⟩ := encodeAncPacket_of_encodable henc
    have hfour : s.recInAnc.byteLength = 4 := by
      rw [AncPacket.byteLength, hempty]
      rfl
    rw [hfour] at hlen
    obtain ⟨t, hx, hplaced⟩ := State.complete_placePacket_of_room hk hok (by rwa [hlen])
    refine ⟨t, hx, hplaced.status, ?_, ?_⟩
    · rw [hplaced.result, hlen]
      rfl
    · rw [hplaced.frame, hlen]

/-! ### VERIFYCS -/

/-- The checks of the checksum verification (42_computed_fields.md R169). -/
theorem verifyMessage_iff (m : AncMessage) :
    verifyMessage m = true ↔ m.userData.length ≤ 255 ∧ m.dataCount = m.userData.length ∧
      m.checksum = checksumWord m.did m.sdid m.userData.length m.userData := by
  unfold verifyMessage
  split_ifs with h
  · exact ⟨fun hf => (nomatch hf), fun ⟨hlen, hcount, _⟩ => by omega⟩
  · rw [beq_iff_eq]
    exact ⟨fun hsum => ⟨by omega, by omega, hsum⟩, fun ⟨_, _, hsum⟩ => hsum⟩

theorem State.storeMessages_recOut (s : State) : s.storeMessages .recOut =
    (s.recOutAnc.map (fun (p : DecodedPacket) => p.messages.map DecodedMessage.msg)).getD [] := by
  unfold State.storeMessages
  cases s.recOutAnc <;> rfl

theorem exec_verifycs_of_none {st : Store} {s : State} (h : (s.storeMessages st).length ≤ s.arg.toNat) :
    exec (.verifycs st) s = .next { s with status := 9 } := by
  rcases execVerifycs_cases st s with ⟨-, hx⟩ | ⟨m, hm, -⟩
  · exact next_status_of_raise hx
  · cases (List.getElem?_eq_none h).symm.trans hm

theorem exec_verifycs_of_some {st : Store} {s : State} {m : AncMessage}
    (h : (s.storeMessages st)[s.arg.toNat]? = some m) :
    exec (.verifycs st) s = .next (State.succeed { s with result := BitVec.ofNat 32 (verifyMessage m).toNat }
      ⟨false, !verifyMessage m⟩) := by
  rcases execVerifycs_cases st s with ⟨hnone, -⟩ | ⟨m', hm, hx⟩
  · cases hnone.symm.trans h
  · cases hm.symm.trans h
    exact hx

/-- Settles O47: the message is that of the store at ARG, and the verification's checks are those of the statement. -/
theorem verifycsChecksTheMessage : Obligations.VerifycsChecksTheMessage := by
  refine ⟨decode_encode (.verifycs .recOut), decode_encode (.verifycs .recIn), fun st s => ?_⟩
  intro messages
  have hmessages : s.storeMessages st = messages := by
    cases st with
    | recIn => rfl
    | recOut => exact s.storeMessages_recOut
  clear_value messages
  subst hmessages
  refine ⟨exec_verifycs_of_none, fun m hm => ?_⟩
  intro ok
  have hok : verifyMessage m = true ↔ ok := verifyMessage_iff m
  have hx := exec_verifycs_of_some hm
  constructor
  · intro h
    rw [hok.mpr h] at hx
    exact hx.trans (congrArg Host.Outcome.next (State.succeed_clear _))
  · intro h
    rw [Bool.eq_false_of_not_eq_true (mt hok.mp h)] at hx
    exact hx

/-! ### The frame -/

/-- The inversion of both packet encodes. -/
theorem encode_next {s t : State} (h : exec .encrtp s = .next t ∨ exec .encanc s = .next t) :
    (∃ e, t = s.raise e) ∨ ∃ bytes, t = (s.commitPacket s.arg.toNat bytes).succeed .clear := by
  rcases h with h | h
  · rcases exec_next h with he | ⟨u, a, rfl, ⟨⟩⟩
    · exact .inl he
    · exact .inr ⟨_, rfl⟩
  · rcases exec_next h with he | ⟨u, a, rfl, ⟨⟩⟩
    · exact .inl he
    · exact .inr ⟨_, rfl⟩

/-- Settles O19: an error writes STATUS only, and a success what its command says. -/
theorem packetCommandsKeepTheHostsState : Obligations.PacketCommandsKeepTheHostsState := by
  intro s t
  refine ⟨?_, fun h => ?_, fun st h => ?_⟩
  · rintro (h | h) <;> rcases exec_next h with ⟨e, rfl⟩ | ⟨u, a, rfl, ⟨⟩⟩ <;> rfl
  · rcases encode_next h with ⟨e, rfl⟩ | ⟨bytes, rfl⟩
    · have hfailed : ¬ (s.mode = .write ∧ statusErr (s.raise e).status = 0) := fun ⟨_, h0⟩ =>
        errCode_ne_zero e ((statusErr_statusWord _ _).symm.trans h0)
      exact ⟨rfl, (if_neg hfailed).symm, (if_neg hfailed).symm⟩
    · refine ⟨rfl, ?_, ?_⟩ <;>
        simp only [State.succeed_mode, State.succeed_pos, State.succeed_status, statusErr_statusWord,
          State.commitPacket_mode, State.commitPacket_pos, and_true]
  · rcases exec_next h with ⟨e, rfl⟩ | ⟨u, a, rfl, ⟨⟩⟩ <;> rfl

end Sys2Proof.Machine
end

section
/-! SUPPORT. How a command ends (60_exceptions.md R250, R251, R260): which errors each command can raise, which commands
leave an advisory, and that no command looks at STATUS. -/

namespace Sys2Proof.Machine

/-! ### Errors -/

/-- The command can end with the error: the rows of 60_exceptions.md R251, command by command, in the order in which
each runs its checks (R257). -/
inductive Raises : Instr → CmdError → Prop
  | rdbits_width (w : BitVec 6) (illegal : ¬ legalWidth w) : Raises (.rdbits w) .illegalWidth
  | rdbits_mode (w : BitVec 6) : Raises (.rdbits w) .wrongMode
  | rdbits_input (w : BitVec 6) : Raises (.rdbits w) .truncatedInput
  | wrbits_width (w : BitVec 6) (illegal : ¬ legalWidth w) : Raises (.wrbits w) .illegalWidth
  | wrbits_mode (w : BitVec 6) : Raises (.wrbits w) .wrongMode
  | wrbits_value (w : BitVec 6) : Raises (.wrbits w) .valueOutOfRange
  | wrbits_room (w : BitVec 6) : Raises (.wrbits w) .outputFull
  | getpos_mode : Raises .getpos .wrongMode
  | seek_mode : Raises .seek .wrongMode
  | seek_target : Raises .seek .seekOutOfRange
  | remain_mode : Raises .remain .wrongMode
  | decrtp_offset : Raises .decrtp .seekOutOfRange
  | decrtp_input : Raises .decrtp .truncatedInput
  | encrtp_offset : Raises .encrtp .seekOutOfRange
  | encrtp_field : Raises .encrtp .fieldOverflow
  | encrtp_room : Raises .encrtp .outputFull
  | decanc_offset : Raises .decanc .seekOutOfRange
  | decanc_input : Raises .decanc .truncatedInput
  | encanc_offset : Raises .encanc .seekOutOfRange
  | encanc_field : Raises .encanc .fieldOverflow
  | encanc_room : Raises .encanc .outputFull
  | verifycs_index (st : Store) : Raises (.verifycs st) .indexOutOfRange

theorem not_legalWidth {w : BitVec 6} (h : w.toNat = 0 ∨ 32 < w.toNat) : ¬ legalWidth w := by
  simp only [legalWidth, Bool.and_eq_true, decide_eq_true_eq]
  omega

/-- The encoder of an RTP header has one error (44_packet_schemas.md R203). -/
theorem error_of_encodeRtpHeader {h : RtpHeader} {e : CmdError} (he : encodeRtpHeader h = .error e) :
    e = .fieldOverflow := by
  rcases encodeRtpHeader_cases h with ⟨-, hr⟩ | ⟨-, bytes, hr, -⟩ <;> cases hr.symm.trans he
  rfl

/-- The encoder of a payload has one error (44_packet_schemas.md R212). -/
theorem error_of_encodeAncPacket {p : AncPacket} {e : CmdError} (he : encodeAncPacket p = .error e) :
    e = .fieldOverflow := by
  rcases encodeAncPacket_cases p with ⟨-, hr⟩ | ⟨-, bytes, hr, -⟩ <;> cases hr.symm.trans he
  rfl

/-- A command that fails raises one of its own errors (60_exceptions.md R251); what a success writes is `Succeeds`. -/
theorem exec_raises_or_succeeds (i : Instr) (s : State) :
    (∃ e, exec i s = .next (s.raise e) ∧ Raises i e) ∨ ∃ u a, exec i s = .next (State.succeed u a) := by
  cases i with
  | cinitr => exact .inr ⟨_, _, rfl⟩
  | cinitw => exact .inr ⟨_, _, rfl⟩
  | rdbits w =>
    rcases execRdbits_cases w s with ⟨hw, h⟩ | ⟨-, -, -, h⟩ | ⟨-, -, -, -, h⟩ | ⟨-, -, -, -, h⟩
    · exact .inl ⟨_, h, .rdbits_width w (not_legalWidth hw)⟩
    · exact .inl ⟨_, h, .rdbits_mode w⟩
    · exact .inl ⟨_, h, .rdbits_input w⟩
    · exact .inr ⟨_, _, h⟩
  | wrbits w =>
    rcases execWrbits_cases w s with
      ⟨hw, h⟩ | ⟨-, -, -, h⟩ | ⟨-, -, -, -, h⟩ | ⟨-, -, -, -, -, h⟩ | ⟨-, -, -, -, -, bytes, -, h⟩
    · exact .inl ⟨_, h, .wrbits_width w (not_legalWidth hw)⟩
    · exact .inl ⟨_, h, .wrbits_mode w⟩
    · exact .inl ⟨_, h, .wrbits_value w⟩
    · exact .inl ⟨_, h, .wrbits_room w⟩
    · exact .inr ⟨_, _, h⟩
  | getpos =>
    rcases execGetpos_cases s with ⟨-, h⟩ | ⟨-, h⟩
    · exact .inl ⟨_, h, .getpos_mode⟩
    · exact .inr ⟨_, _, h⟩
  | seek =>
    rcases execSeek_cases s with ⟨-, h⟩ | ⟨-, -, h⟩ | ⟨-, -, h⟩
    · exact .inl ⟨_, h, .seek_mode⟩
    · exact .inl ⟨_, h, .seek_target⟩
    · exact .inr ⟨_, _, h⟩
  | remain =>
    rcases execRemain_cases s with ⟨-, h⟩ | ⟨-, h⟩
    · exact .inl ⟨_, h, .remain_mode⟩
    · exact .inr ⟨_, _, h⟩
  | decrtp =>
    obtain ⟨honly, -⟩ := decodesNeverOverflow (s.inBytes.drop s.arg.toNat)
    rcases execDecrtp_cases s with ⟨-, h⟩ | ⟨e, -, he, h⟩ | ⟨hdr, n, -, -, h⟩
    · exact .inl ⟨_, h, .decrtp_offset⟩
    · exact .inl ⟨_, h, honly e he ▸ .decrtp_input⟩
    · exact .inr ⟨_, _, h⟩
  | encrtp =>
    rcases execEncrtp_cases s with ⟨-, h⟩ | ⟨e, -, he, h⟩ | ⟨bytes, -, -, -, h⟩ | ⟨bytes, -, -, -, h⟩
    · exact .inl ⟨_, h, .encrtp_offset⟩
    · exact .inl ⟨_, h, error_of_encodeRtpHeader he ▸ .encrtp_field⟩
    · exact .inl ⟨_, h, .encrtp_room⟩
    · exact .inr ⟨_, _, h⟩
  | decanc =>
    obtain ⟨-, honly, -⟩ := decodesNeverOverflow (s.inBytes.drop s.arg.toNat)
    rcases execDecanc_cases s with ⟨-, h⟩ | ⟨e, -, he, h⟩ | ⟨p, n, -, -, h⟩
    · exact .inl ⟨_, h, .decanc_offset⟩
    · exact .inl ⟨_, h, honly e he ▸ .decanc_input⟩
    · exact .inr ⟨_, _, h⟩
  | encanc =>
    rcases execEncanc_cases s with ⟨-, h⟩ | ⟨e, -, he, h⟩ | ⟨bytes, -, -, -, h⟩ | ⟨bytes, -, -, -, h⟩
    · exact .inl ⟨_, h, .encanc_offset⟩
    · exact .inl ⟨_, h, error_of_encodeAncPacket he ▸ .encanc_field⟩
    · exact .inl ⟨_, h, .encanc_room⟩
    · exact .inr ⟨_, _, h⟩
  | verifycs st =>
    rcases execVerifycs_cases st s with ⟨-, h⟩ | ⟨m, -, h⟩
    · exact .inl ⟨_, h, .verifycs_index st⟩
    · exact .inr ⟨_, _, h⟩

theorem State.statusErr_raise_ne_zero (s : State) (e : CmdError) : statusErr (s.raise e).status ≠ 0 := by
  rw [State.raise_status, statusErr_statusWord]
  exact errCode_ne_zero e

theorem State.statusErr_succeed (s : State) (a : Advisories) : statusErr (s.succeed a).status = 0 := by
  rw [State.succeed_status, statusErr_statusWord]

/-- The inversion of a command that ends with an error. -/
theorem raises_of_statusErr_ne_zero {i : Instr} {s t : State} (h : exec i s = .next t)
    (herr : statusErr t.status ≠ 0) : ∃ e, t = s.raise e ∧ Raises i e := by
  rcases exec_raises_or_succeeds i s with ⟨e, hx, he⟩ | ⟨u, a, hx⟩ <;> cases hx.symm.trans h
  · exact ⟨e, rfl, he⟩
  · exact absurd (u.statusErr_succeed a) herr

/-! ### Advisories -/

/-- Only DECANC leaves ADV_PARITY, only DECANC and VERIFYCS leave ADV_CHECKSUM (10_state.md R27). -/
theorem Succeeds.advisories {i : Instr} {s u : State} {a : Advisories} (h : Succeeds i s u a) :
    (a.parity = true → i = .decanc) ∧ (a.checksum = true → i = .decanc ∨ ∃ st, i = .verifycs st) := by
  cases h with
  | decanc => exact ⟨fun _ => rfl, fun _ => .inl rfl⟩
  | verifycs st => exact ⟨nofun, fun _ => .inr ⟨st, rfl⟩⟩
  | _ => exact ⟨nofun, nofun⟩

/-! ### STATUS is not read -/

/-- Both endings of a command write STATUS, so bodies that run the same checks, in states that differ in STATUS only,
end alike when what follows the checks does. -/
theorem State.settle_bind_status {α : Type} {s : State} {w : Word} {x : Except CmdError α} {f f' : α → Effect}
    (h : ∀ v, State.settle { s with status := w } (f' v) = s.settle (f v)) :
    State.settle { s with status := w } (x >>= f') = s.settle (x >>= f) := by
  rcases x with e | v
  · rfl
  · exact h v

theorem State.settle_placePacket_status (s : State) (w : Word) (r : Except CmdError (List Byte)) :
    State.settle { s with status := w } (State.placePacket { s with status := w } r) = s.settle (s.placePacket r) :=
  State.settle_bind_status fun k => State.settle_bind_status fun bytes => by
    split <;> rfl

/-! ### The statements -/

/-- Settles O20: the checks of each command and what it writes, STATUS aside, do not look at STATUS. -/
theorem statusNeverAffectsACommand : Obligations.StatusNeverAffectsACommand := by
  intro i s w
  cases i with
  | cinitr => rfl
  | cinitw => rfl
  | rdbits n =>
    exact congrArg Host.Outcome.next <| State.settle_bind_status fun _ => State.settle_bind_status fun _ =>
      State.settle_bind_status fun _ => rfl
  | wrbits n =>
    exact congrArg Host.Outcome.next <| State.settle_bind_status fun _ => State.settle_bind_status fun _ =>
      State.settle_bind_status fun _ => rfl
  | getpos => exact congrArg Host.Outcome.next <| State.settle_bind_status fun _ => rfl
  | seek =>
    exact congrArg Host.Outcome.next <| State.settle_bind_status fun _ => State.settle_bind_status fun _ => rfl
  | remain => exact congrArg Host.Outcome.next <| State.settle_bind_status fun _ => rfl
  | decrtp =>
    exact congrArg Host.Outcome.next <| State.settle_bind_status fun _ => State.settle_bind_status fun _ => rfl
  | encrtp => exact congrArg Host.Outcome.next (s.settle_placePacket_status w _)
  | decanc =>
    exact congrArg Host.Outcome.next <| State.settle_bind_status fun _ => State.settle_bind_status fun _ => rfl
  | encanc => exact congrArg Host.Outcome.next (s.settle_placePacket_status w _)
  | verifycs st => exact congrArg Host.Outcome.next <| State.settle_bind_status fun _ => rfl

/-- Settles O14: a word that does not decode and a command that fails raise an error, and the advisories of a success
are those of its command. -/
theorem commandsSucceedOrChangeOnlyStatus : Obligations.CommandsSucceedOrChangeOnlyStatus := by
  intro w s
  rcases runCommand_cases w s with ⟨e, hrun⟩ | ⟨i, hdec, hrun⟩
  · exact ⟨_, hrun, .inl ⟨e, rfl, s.statusErr_raise_ne_zero e⟩⟩
  rcases exec_cases i s with ⟨e, hx⟩ | ⟨u, a, hx, hsucc⟩
  · exact ⟨_, hrun.trans hx, .inl ⟨e, rfl, s.statusErr_raise_ne_zero e⟩⟩
  · obtain ⟨hparity, hchecksum⟩ := hsucc.advisories
    refine ⟨_, hrun.trans hx, .inr ⟨u.statusErr_succeed a, ?_⟩⟩
    rw [State.succeed_status, statusAdvParity_statusWord, statusAdvChecksum_statusWord, hdec]
    refine ⟨rfl, fun hp => congrArg Except.ok (hparity hp), fun hc => ?_⟩
    exact (hchecksum hc).imp (congrArg Except.ok) fun ⟨st, hst⟩ => ⟨st, congrArg Except.ok hst⟩

/-- Settles O15: the table of errors per command, read per error. -/
theorem eachCommandRaisesOnlyItsErrors : Obligations.EachCommandRaisesOnlyItsErrors := by
  intro i s t h herr
  obtain ⟨e, rfl, he⟩ := raises_of_statusErr_ne_zero h herr
  refine ⟨e, rfl, ?_⟩
  cases he with
  | rdbits_width w hw => exact ⟨Bool.eq_false_of_not_eq_true hw, .inl ⟨w, rfl⟩⟩
  | wrbits_width w hw => exact ⟨Bool.eq_false_of_not_eq_true hw, .inr ⟨w, rfl⟩⟩
  | _ => simp

end Sys2Proof.Machine
end
